-- ==== Sys2Proof/Word.lean ====
section
/-! DEFINITION. The bit vectors of HUF1: register words, symbols, node ids, code bits, the bit counter. -/

namespace Sys2Proof

/-- A 32-bit register value, command word or frequency (R8, R26, R44). Every number of the spec is unsigned (R10). -/
abbrev Word := BitVec 32

/-- A symbol: "one byte value (0–255)", an unsigned 8-bit number (R9). -/
abbrev Sym := BitVec 8

/-- A 9-bit node id: leaf ids 0..255, internal ids 256..510 (R19, R58). -/
abbrev NodeId := BitVec 9

/-- The 255 stored code bits of a code-table entry; bit 0 is the first bit of the code (R8, R17). -/
abbrev CodeBits := BitVec 255

/-- The 64-bit statistic BITCNT (R8). -/
abbrev BitCount := BitVec 64

end Sys2Proof
end

