-- ==== Sys2Proof/Config.lean ====
section
/-! DEFINITION. What the platform fixes: the two OPEN parameters of R8 (decisions D29, D30). -/

namespace Sys2Proof

/-- The open parameters of one HUF1 block. The record is a field of State, and no step changes it, so a statement
about every state is a statement about every value of the parameters (D30: "claims should quantify over it"). -/
structure Config where
  /-- OBUF_DEPTH, the capacity of the output FIFO in bits; legal values are 255..65535 (R8, D30). -/
  obufDepth : Nat
  /-- REG_BASE, the address of register offset 0x00 on the platform's bus (R8, D29). -/
  regBase : Nat
deriving DecidableEq, Repr

/-- The configuration that `State.reset` carries: OBUF_DEPTH at the spec's reference value 1024 (R8), and
REG_BASE 0. DESIGN CHOICE (log entry 2): the spec leaves both open. -/
def Config.reference : Config := { obufDepth := 1024, regBase := 0 }

end Sys2Proof
end

