-- ==== Sys2Proof/Syntax.lean ====
section
/-! DEFINITION. The commands of HUF1: one constructor for each row of spec/opcode_table.json (R46). -/

namespace Sys2Proof

/-- A legal command word, decoded. The one operand is the symbol (R45). -/
inductive Instr where
  /-- NOP, 0x00000000: no operation (R90). -/
  | nop
  /-- CLR, 0x01000000: abort and clear the whole datapath (R91). -/
  | clr
  /-- CNT s, 0x020000ss: count one occurrence of symbol s (R52). -/
  | cnt (s : Sym)
  /-- BUILD, 0x03000000: build the tree and the code table (R57). -/
  | build
  /-- ESTART, 0x04000000: start an encoding pass (R80). -/
  | estart
  /-- ENC s, 0x050000ss: encode one symbol s (R82). -/
  | enc (s : Sym)
deriving DecidableEq, Repr

end Sys2Proof
end

