-- ==== Sys2Proof/WellFormed.lean ====
section
/-! DEFINITION. Well-formedness: commands, the open parameters, and the shape of a register access. -/

namespace Sys2Proof

/-- Every term of `Instr` is well formed: NOP, CLR, BUILD and ESTART have no operand, and every 8-bit value is a
symbol CNT and ENC accept ("`s` = 0x00 and `s` = 0xFF are ordinary symbols", R45, R52). -/
def Instr.wf (i : Instr) : Bool :=
  match i with
  | .nop => true
  | .clr => true
  | .cnt _ => true
  | .build => true
  | .estart => true
  | .enc _ => true

/-- The bound on the open parameter: 255 ≤ OBUF_DEPTH ≤ 65535 (R8, D30). -/
def Config.wf (c : Config) : Bool :=
  decide (255 ≤ c.obufDepth) && decide (c.obufDepth ≤ 65535)

/-- An access the register port can express: an offset that is a multiple of 4 below 0x100, and exactly 32 bits
(R31, R32). Every other access is refused. -/
def accessWf (offset widthBits : Nat) : Bool :=
  decide (offset % 4 = 0) && decide (offset < 0x100) && decide (widthBits = 32)

end Sys2Proof
end

