-- ==== Sys2Proof/Decode.lean ====
section
/-! DEFINITION. Command words: the fields of R44, the decoder of R46 (total on all 2^32 words), Legal(w) of R47 as
the spec writes it, and the encoder. -/

namespace Sys2Proof

/-- OP, bits [31:24] of a command word (R44). -/
def opField (w : Word) : BitVec 8 := w.extractLsb' 24 8

/-- RSV, bits [23:8] of a command word; must be 0 (R44). -/
def rsvField (w : Word) : BitVec 16 := w.extractLsb' 8 16

/-- SYM, bits [7:0] of a command word (R44, R45). -/
def symField (w : Word) : Sym := w.extractLsb' 0 8

/-- Why a word is no command (R48). The names, and which one is given first, are the model's (log entry 13). -/
inductive DecodeError where
  /-- OP is 0x06..0xFF: no opcode is assigned. -/
  | unassignedOpcode
  /-- RSV is not 0. -/
  | reservedBits
  /-- SYM is not 0 on NOP, CLR, BUILD or ESTART. -/
  | symbolBits
deriving DecidableEq, Repr

/-- A command with a symbol operand: RSV must be 0 (R44, R46). -/
def decodeWithSymbol (w : Word) (i : Sym → Instr) : Except DecodeError Instr :=
  if rsvField w ≠ 0#16 then .error .reservedBits else .ok (i (symField w))

/-- A command without operand: RSV and SYM must be 0 (R44, R46). -/
def decodeNoOperand (w : Word) (i : Instr) : Except DecodeError Instr :=
  if rsvField w ≠ 0#16 then .error .reservedBits
  else if symField w ≠ 0#8 then .error .symbolBits
  else .ok i

/-- The decoder: the opcode map of R46. -/
def decode (w : Word) : Except DecodeError Instr :=
  match (opField w).toNat with
  | 0x00 => decodeNoOperand w .nop
  | 0x01 => decodeNoOperand w .clr
  | 0x02 => decodeWithSymbol w .cnt
  | 0x03 => decodeNoOperand w .build
  | 0x04 => decodeNoOperand w .estart
  | 0x05 => decodeWithSymbol w .enc
  | _ => .error .unassignedOpcode

/-- `Legal(w)`, as R47 writes it: by the opcode, either w[23:0] or w[23:8] must be 0. -/
def legal (w : Word) : Bool :=
  match (w.extractLsb' 24 8).toNat with
  | 0x00 | 0x01 | 0x03 | 0x04 => w.extractLsb' 0 24 == 0#24
  | 0x02 | 0x05 => w.extractLsb' 8 16 == 0#16
  | _ => false

/-- A command word from its fields, OP at [31:24] and SYM at [7:0]; RSV is 0 (R44). -/
def packCommand (op : BitVec 8) (sym : Sym) : Word := op.setWidth 32 <<< 24 ||| sym.setWidth 32

/-- The command word of an instruction (R46). -/
def encode (i : Instr) : Word :=
  match i with
  | .nop => packCommand 0x00#8 0#8
  | .clr => packCommand 0x01#8 0#8
  | .cnt s => packCommand 0x02#8 s
  | .build => packCommand 0x03#8 0#8
  | .estart => packCommand 0x04#8 0#8
  | .enc s => packCommand 0x05#8 s

/-- The host's view of the decoder. A command is one 32-bit word (R44), so the bits above `nbits` are 0 and the rest
is the command word as it stands. -/
def decodeTableWord (nbits w : Nat) : Option Instr :=
  (decode (BitVec.ofNat 32 (w % 2 ^ nbits))).toOption

end Sys2Proof
end

