-- ==== Sys2Proof/Machine/State.lean ====
section
/-! DEFINITION. The state of HUF1 (R16), the host's pending bus events, the reasons a step can stop, and reset (R30). -/

namespace Sys2Proof.Machine

/-- The phase; value 3 never occurs (R16, D10). -/
inductive Phase where
  | count
  | ready
  | error
deriving DecidableEq, Repr

/-- The long command in flight (R16, D12). -/
inductive Inflight where
  | none
  | build
  | enc (s : Sym)
deriving DecidableEq, Repr

/-- The error codes 0..7 of R92; codes 8..15 are never produced, so the type has none of them. -/
inductive ErrCode where
  | none
  | emptyInput
  | unencodableSymbol
  | illegalCommand
  | sequence
  | freqOverflow
  | statOverflow
  | cmdOverrun
deriving DecidableEq, Repr

/-- One entry of the code-table memory (R16, R17): `len` code bits, code bit i at bit i of `code`. -/
structure CtEntry where
  len : BitVec 8
  code : CodeBits
deriving DecidableEq, Repr

/-- The 256 frequency counters, indexed by symbol (R16). -/
abbrev FreqTable := Vector Word 256

/-- The code-table memory, indexed by symbol (R16). -/
abbrev CodeTable := Vector CtEntry 256

/-- How wide an access the host's platform presents. The port carries 32-bit accesses only (R31); the others are
here so that they can be refused (R32). -/
inductive AccessWidth where
  | byte
  | half
  | word
deriving DecidableEq, Repr

/-- BusRead, or BusWrite with its value (R31). -/
inductive AccessOp where
  | read
  | write (v : Word)
deriving DecidableEq, Repr

/-- One access of the host, at a platform address; the register window starts at REG_BASE (R31). -/
structure Access where
  addr : Nat
  width : AccessWidth
  op : AccessOp
deriving DecidableEq, Repr

/-- What moves next (R4, R12): the HOST with one access, the ENGINE with one `Complete()`, or the reset pin (R106). -/
inductive Event where
  | host (a : Access)
  | engine
  | reset
deriving DecidableEq, Repr

/-- The registers of the register map (R27), and `unmapped` for the offsets 0x60 to 0xFC (R26). -/
inductive Reg where
  | id
  | cmd
  | status
  | err
  | total
  | nsym
  | tabSel
  | tabFreq
  | tabInfo
  | rootFreq
  | symcnt
  | bitcntLo
  | bitcntHi
  | outLevel
  | outBit
  | param
  | tabCode (w : Fin 8)
  | unmapped
deriving DecidableEq, Repr

/-- A value that a BusRead returned to the host (RDATA), with the register offset it was read at. -/
structure ReadResult where
  offset : Nat
  value : Word
deriving DecidableEq, Repr

/-- The machine stops with a fault. -/
inductive Fault where
  /-- Raised by an ENGINE event when `Complete()` is not enabled, that is when not (busy and not hold): the spec
  gives the ENGINE no step there (R40, R84; 93: "the ENGINE step stays disabled"). SAFE: the model stops. -/
  | engineNotEnabled
deriving DecidableEq, Repr

/-- The model has no step. -/
inductive Refusal where
  /-- Raised by no arm of this model: every command has its meaning. The host's form asks for it. SAFE. -/
  | notModelled (mnemonic : String)
  /-- Raised by an access narrower than 32 bits: "A model refuses" it (R32). SAFE: no step. -/
  | narrowAccess
  /-- Raised by an access whose offset is not a multiple of 4: "A model refuses" it (R32). SAFE: no step. -/
  | misalignedAccess
  /-- Raised by an access below REG_BASE or at an offset of 0x100 or more: "A model refuses" it (R32). SAFE. -/
  | outsideWindow
  /-- Raised when no event is pending and `Complete()` is not enabled: no agent has a step (R12, R40). SAFE. -/
  | noPendingEvent
deriving DecidableEq, Repr

/-- The state. The fields `phase` to `tabSel` are the elements of R16, one field per row; `nsym` and `hold` are
derived (R18), and the hidden storage of R19 is not kept between steps (R19, log entry 4). The other three are the
model's: the open parameters, the agents' pending events, and what the host's reads returned. -/
structure State where
  /-- OBUF_DEPTH and REG_BASE (R8). -/
  cfg : Config
  /-- The phase COUNT, READY or ERROR. -/
  phase : Phase
  /-- A long command is in flight. -/
  busy : Bool
  /-- The long command in flight. -/
  inflight : Inflight
  /-- A CMD write was discarded while busy. -/
  ovrp : Bool
  /-- The code-table memory holds the table of the last completed BUILD. -/
  tvalid : Bool
  /-- The frequency counters. -/
  fc : FreqTable
  /-- Number of symbols counted since the last CLR or reset. -/
  total : Word
  /-- The code-table memory. -/
  ct : CodeTable
  /-- Frequency of the root of the last completed BUILD, else 0. -/
  rootFreq : Word
  /-- Input symbols encoded in the current pass. -/
  symcnt : Word
  /-- Output bits emitted in the current pass. -/
  bitcnt : BitCount
  /-- The output bit FIFO, oldest bit first. -/
  obuf : List Bool
  /-- ERR.CODE. -/
  errCode : ErrCode
  /-- ERR.SYM. -/
  errSym : BitVec 8
  /-- ERR.OP. -/
  errOp : BitVec 8
  /-- The symbol whose table entry the lookup readout shows. -/
  tabSel : Sym
  /-- The model's own: the events still to happen, next first (R14: the "program" is the host's sequence of
  register accesses; R41: ENGINE steps between them; log entry 1). -/
  events : List Event
  /-- The model's own: what the host's reads returned, newest first (log entry 6). -/
  readLog : List ReadResult
deriving DecidableEq, Repr

/-- The entry of a symbol without a code: len 0, code 0 (R30, R68). -/
def CtEntry.empty : CtEntry := { len := 0#8, code := 0#255 }

/-- The machine right after reset (R30, R106). The configuration is the reference one, and no event is pending:
log entries 2 and 3. -/
def State.reset : State :=
  { cfg := Config.reference
    phase := .count
    busy := false
    inflight := .none
    ovrp := false
    tvalid := false
    fc := Vector.replicate 256 0#32
    total := 0#32
    ct := Vector.replicate 256 CtEntry.empty
    rootFreq := 0#32
    symcnt := 0#32
    bitcnt := 0#64
    obuf := []
    errCode := .none
    errSym := 0#8
    errOp := 0#8
    tabSel := 0#8
    events := []
    readLog := [] }

end Sys2Proof.Machine
end

