-- ==== Sys2Proof/Machine/Operands.lean ====
section
/-! DEFINITION. The operand forms: the symbol that selects a counter or a table entry (R45), and the address that
selects a register (R26, R27, R31, R32). -/

namespace Sys2Proof.Machine

/-- `fc[s]` (R16, R45). -/
def freqOf (fc : FreqTable) (s : Sym) : Word := fc[s.toNat]'(s.isLt)

/-- `fc[s] <- v` (R11). -/
def setFreq (fc : FreqTable) (s : Sym) (v : Word) : FreqTable := fc.set s.toNat v (s.isLt)

/-- `ct[s]` (R16, R78: the symbol indexes the entry directly). -/
def entryOf (ct : CodeTable) (s : Sym) : CtEntry := ct[s.toNat]'(s.isLt)

/-- `ct[s] <- e` (R11). -/
def setEntry (ct : CodeTable) (s : Sym) (e : CtEntry) : CodeTable := ct.set s.toNat e (s.isLt)

/-- Every counter 0 (R30, R91). -/
def clearedFreq : FreqTable := Vector.replicate 256 0#32

/-- Every entry len 0, code 0 (R30, R68, R91). -/
def clearedTable : CodeTable := Vector.replicate 256 CtEntry.empty

/-- The code of an entry as a bit-string in emission order: bits 0 to len − 1 (R10, R17). -/
def CtEntry.bits (e : CtEntry) : List Bool := (List.range e.len.toNat).map e.code.getLsbD

/-- The entry (len |p|, code p): code bit i is p's bit i, and the bits at positions ≥ |p| are 0 (R17, R69). -/
def CtEntry.ofBits (p : List Bool) : CtEntry :=
  { len := BitVec.ofNat 8 p.length, code := (BitVec.ofBoolListLE p).setWidth 255 }

/-- The 256 symbols in numeric order (R9). -/
def allSyms : List Sym := (List.range 256).map (BitVec.ofNat 8)

/-- The present symbols, in numeric order: those whose counter is nonzero (R13, R54). -/
def presentSyms (fc : FreqTable) : List Sym :=
  ((allSyms.zip fc.toList).filter (fun p => p.2 != 0#32)).map Prod.fst

/-- The width of an access in bits. -/
def AccessWidth.numBits (w : AccessWidth) : Nat :=
  match w with
  | .byte => 8
  | .half => 16
  | .word => 32

/-- The register offset an access addresses, or the refusal of R32: only 32-bit accesses at a multiple of 4 inside
the 256-byte window at REG_BASE have a step (R31). Addresses are naturals (log entry 9). -/
def windowOffset (c : Config) (a : Access) : Except Refusal Nat :=
  if a.width.numBits < 32 then .error .narrowAccess
  else if a.addr < c.regBase ∨ c.regBase + 0x100 ≤ a.addr then .error .outsideWindow
  else if (a.addr - c.regBase) % 4 ≠ 0 then .error .misalignedAccess
  else .ok (a.addr - c.regBase)

/-- The register at a byte offset (R27); every other offset is unmapped (R26). -/
def regAt (off : Nat) : Reg :=
  match off with
  | 0x00 => .id
  | 0x04 => .cmd
  | 0x08 => .status
  | 0x0C => .err
  | 0x10 => .total
  | 0x14 => .nsym
  | 0x18 => .tabSel
  | 0x1C => .tabFreq
  | 0x20 => .tabInfo
  | 0x24 => .rootFreq
  | 0x28 => .symcnt
  | 0x2C => .bitcntLo
  | 0x30 => .bitcntHi
  | 0x34 => .outLevel
  | 0x38 => .outBit
  | 0x3C => .param
  | 0x40 => .tabCode 0
  | 0x44 => .tabCode 1
  | 0x48 => .tabCode 2
  | 0x4C => .tabCode 3
  | 0x50 => .tabCode 4
  | 0x54 => .tabCode 5
  | 0x58 => .tabCode 6
  | 0x5C => .tabCode 7
  | _ => .unmapped

end Sys2Proof.Machine
end

