-- ==== Sys2Proof/Machine/Flags.lean ====
section
/-! DEFINITION. Derived values (R18), the STATUS, ERR and TAB_INFO fields (R27), and the value every register reads. -/

namespace Sys2Proof.Machine

/-- STATUS.PHASE: 0 COUNT, 1 READY, 2 ERROR (R16, R27). -/
def Phase.bits (p : Phase) : BitVec 2 :=
  match p with
  | .count => 0#2
  | .ready => 1#2
  | .error => 2#2

/-- ERR.CODE (R92). -/
def ErrCode.bits (e : ErrCode) : BitVec 4 :=
  match e with
  | .none => 0#4
  | .emptyInput => 1#4
  | .unencodableSymbol => 2#4
  | .illegalCommand => 3#4
  | .sequence => 4#4
  | .freqOverflow => 5#4
  | .statOverflow => 6#4
  | .cmdOverrun => 7#4

/-- `nsym`, the number of present symbols, 0..256 (R18). -/
def State.nsym (s : State) : Nat := (presentSyms s.fc).length

/-- `hold`: an ENC waits for output space (R18, R84). The free space is a natural number (log entry 12). -/
def State.hold (s : State) : Bool :=
  match s.inflight with
  | .enc x => s.busy && decide (s.cfg.obufDepth - s.obuf.length < (entryOf s.ct x).len.toNat)
  | .build => false
  | .none => false

/-- `Complete()` is enabled exactly when busy and not hold (R40). -/
def State.engineEnabled (s : State) : Bool := s.busy && !s.hold

/-- The ID register's constant (R2, R27). -/
def idValue : Word := 0x48554631#32

/-- A one-bit field of a register, at bit i (R10). -/
def bitAt (i : Nat) (b : Bool) : Word := (BitVec.ofBool b).setWidth 32 <<< i

/-- STATUS: BUSY [0], HOLD [1], PHASE [3:2], TVALID [4], OVRP [5] (R27). -/
def State.statusWord (s : State) : Word :=
  bitAt 0 s.busy ||| bitAt 1 s.hold ||| s.phase.bits.setWidth 32 <<< 2 ||| bitAt 4 s.tvalid ||| bitAt 5 s.ovrp

/-- ERR: CODE [3:0], SYM [15:8], OP [23:16] (R27). -/
def State.errWord (s : State) : Word :=
  s.errCode.bits.setWidth 32 ||| s.errSym.setWidth 32 <<< 8 ||| s.errOp.setWidth 32 <<< 16

/-- The entry the lookup readout shows: ct[TAB_SEL] while TVALID = 1; len 0 and code 0 otherwise (R27, D21). -/
def State.shownEntry (s : State) : CtEntry :=
  if s.tvalid then entryOf s.ct s.tabSel else CtEntry.empty

/-- TAB_INFO: LEN [7:0], PRESENT [8], TVALID [9] (R27). -/
def State.tabInfoWord (s : State) : Word :=
  s.shownEntry.len.setWidth 32 ||| bitAt 8 (freqOf s.fc s.tabSel != 0#32) ||| bitAt 9 s.tvalid

/-- OUT_BIT as it reads: 0x80000000 with the head bit of OBUF at bit 0, or 0 when OBUF is empty (R27, R34). -/
def State.outBitWord (s : State) : Word :=
  match s.obuf with
  | [] => 0x00000000#32
  | b :: _ => bitAt 31 true ||| bitAt 0 b

/-- The value a register reads: the column "value read" of R27; CMD and unmapped offsets read 0 (R33). The pop that
goes with an OUT_BIT read is in `busRead`. -/
def regValue (r : Reg) (s : State) : Word :=
  match r with
  | .id => idValue
  | .cmd => 0#32
  | .status => s.statusWord
  | .err => s.errWord
  | .total => s.total
  | .nsym => BitVec.ofNat 32 s.nsym
  | .tabSel => s.tabSel.setWidth 32
  | .tabFreq => freqOf s.fc s.tabSel
  | .tabInfo => s.tabInfoWord
  | .rootFreq => s.rootFreq
  | .symcnt => s.symcnt
  | .bitcntLo => s.bitcnt.extractLsb' 0 32
  | .bitcntHi => s.bitcnt.extractLsb' 32 32
  | .outLevel => (BitVec.ofNat 16 s.obuf.length).setWidth 32
  | .outBit => s.outBitWord
  | .param => (BitVec.ofNat 16 s.cfg.obufDepth).setWidth 32
  | .tabCode w => (s.shownEntry.code.setWidth 256).extractLsb' (32 * w.val) 32
  | .unmapped => 0#32

end Sys2Proof.Machine
end

