-- ==== Sys2Proof/Machine/Ops.lean ====
section
/-! DEFINITION. The shared operations: recording an error and entering ERROR (R93), the two ways out (ESTART's and
CLR's effects, R80, R91), the overrun record and the gate every command passes (R49), the output FIFO, TAB_SEL, and
reset (R106). -/

namespace Sys2Proof.Machine

/-- Writing ERR: the code, and SYM and OP from the command word that caused the error (R92, D28). -/
def State.recordErr (e : ErrCode) (w : Word) (s : State) : State :=
  { s with errCode := e, errSym := symField w, errOp := opField w }

/-- `raise E(w)`: record the error and enter phase ERROR; nothing else changes (R93). This is the block's "exception
entry": it transfers no control and saves nothing but ERR (R99). -/
def State.raise (e : ErrCode) (w : Word) (s : State) : State :=
  { s.recordErr e w with phase := .error }

/-- A word discarded while busy: the first one records CMD_OVERRUN, later ones change nothing (R49). -/
def State.overrun (w : Word) (s : State) : State :=
  if s.ovrp then s else { s.recordErr .cmdOverrun w with ovrp := true }

/-- The start of an encoding pass, ESTART's effect; from phase ERROR it is one of the two "trap returns" (R80, R99). -/
def State.startPass (s : State) : State :=
  { s with
    obuf := []
    symcnt := 0#32
    bitcnt := 0#64
    errCode := .none
    errSym := 0#8
    errOp := 0#8
    phase := .ready }

/-- The cleared datapath, CLR's effect; TAB_SEL keeps its value (R91). The other "trap return" (R99). -/
def State.cleared (s : State) : State :=
  { s with
    busy := false
    inflight := .none
    ovrp := false
    fc := clearedFreq
    ct := clearedTable
    total := 0#32
    rootFreq := 0#32
    tvalid := false
    symcnt := 0#32
    bitcnt := 0#64
    obuf := []
    errCode := .none
    errSym := 0#8
    errOp := 0#8
    phase := .count }

/-- A long command issues: BUSY is set and its results wait for `Complete()` (D12). -/
def State.beginLong (c : Inflight) (s : State) : State := { s with busy := true, inflight := c }

/-- The part of R49 that comes before the command itself, for every word that is neither CLR nor NOP: while busy the
word is an overrun; in phase ERROR it is discarded with no change (R96); otherwise `body` is its effect. -/
def State.gated (w : Word) (body : State → State) (s : State) : State :=
  if s.busy then s.overrun w
  else if s.phase = .error then s
  else body s

/-- `Issue(w)` of a word that is not legal (R48, R49): ILLEGAL_COMMAND in COUNT or READY while not busy. -/
def State.issueIllegal (w : Word) (s : State) : State :=
  s.gated w (fun t => t.raise .illegalCommand w)

/-- `push` of a bit-string, first bit first (R11, R83). -/
def State.pushBits (p : List Bool) (s : State) : State := { s with obuf := s.obuf ++ p }

/-- `pop()`: the head of OBUF leaves; an empty OBUF stays (R11, R34). -/
def State.popBit (s : State) : State := { s with obuf := s.obuf.tail }

/-- `tab_sel <- v[7:0]` (R35). -/
def State.setTabSel (v : Word) (s : State) : State := { s with tabSel := v.extractLsb' 0 8 }

/-- The host receives a read value (RDATA, D2). -/
def State.logRead (off : Nat) (v : Word) (s : State) : State :=
  { s with readLog := { offset := off, value := v } :: s.readLog }

/-- Reset: every element of R30 at its reset value (R106). The platform's parameters, the host's remaining accesses
and the values the host has read are not the block's state and stay (log entry 8). -/
def State.applyReset (s : State) : State :=
  { State.reset with cfg := s.cfg, events := s.events, readLog := s.readLog }

end Sys2Proof.Machine
end

