-- ==== Sys2Proof/Machine/Control.lean ====
section
/-! DEFINITION. The control commands NOP and CLR (spec 44). -/

namespace Sys2Proof.Machine

/-- NOP: accepted in every phase and while busy; nothing changes (R49, R90). -/
def execNop (s : State) : Host.Outcome State Fault Refusal := .next s

/-- CLR: accepted in every phase and while busy; a long command in flight is aborted, nothing of it is committed, and
the datapath is cleared (R49, R91). -/
def execClr (s : State) : Host.Outcome State Fault Refusal := .next s.cleared

end Sys2Proof.Machine
end

