-- ==== Sys2Proof/Machine/Encoder.lean ====
section
/-! DEFINITION. The encoder (spec 43): ESTART, ENC's issue and EncCommit. -/

namespace Sys2Proof.Machine

/-- ESTART's own rule in COUNT or READY: SEQUENCE in COUNT, else a new pass (R80). -/
def State.estartBody (s : State) : State :=
  if s.phase = .count then s.raise .sequence (encode .estart) else s.startPass

/-- ESTART (R49, R80): while busy an overrun; in phase ERROR a new pass when TVALID = 1, else discarded (R96). -/
def execEstart (s : State) : Host.Outcome State Fault Refusal :=
  .next
    (if s.busy then s.overrun (encode .estart)
     else if s.phase = .error then (if s.tvalid then s.startPass else s)
     else s.estartBody)

/-- ENC's own rule at issue: SEQUENCE outside READY, then UNENCODABLE_SYMBOL, then STAT_OVERFLOW, else BUSY (R82). -/
def State.encBody (x : Sym) (s : State) : State :=
  if s.phase ≠ .ready then s.raise .sequence (encode (.enc x))
  else if (entryOf s.ct x).len = 0#8 then s.raise .unencodableSymbol (encode (.enc x))
  else if s.symcnt = 0xFFFFFFFF#32 then s.raise .statOverflow (encode (.enc x))
  else s.beginLong (.enc x)

/-- ENC s: the issue (R49, R82). Its bits are appended by `Complete()`. -/
def execEnc (x : Sym) (s : State) : Host.Outcome State Fault Refusal :=
  .next (s.gated (encode (.enc x)) (State.encBody x))

/-- The statistics of one encoded symbol of L bits: SYMCNT + 1, BITCNT + L (R83). -/
def State.countEncoded (len : BitVec 8) (s : State) : State :=
  { s with symcnt := s.symcnt + 1#32, bitcnt := s.bitcnt + len.setWidth 64 }

/-- `EncCommit(s)`: the code's bits enter OBUF, bit 0 first, and the symbol and its bits are counted (R83).
The sums wrap in unreachable states only (log entry 14). -/
def State.encCommit (x : Sym) (s : State) : State :=
  (s.pushBits (entryOf s.ct x).bits).countEncoded (entryOf s.ct x).len

end Sys2Proof.Machine
end

