-- ==== Sys2Proof/Machine/FrequencyCounter.lean ====
section
/-! DEFINITION. The frequency counter: CNT (spec 40). -/

namespace Sys2Proof.Machine

/-- The count of one occurrence: `fc[x]` and TOTAL rise by 1 (R52). `fc[x]` wraps in unreachable states
only (log entry 14). -/
def State.countSymbol (x : Sym) (s : State) : State :=
  { s with fc := setFreq s.fc x (freqOf s.fc x + 1#32), total := s.total + 1#32 }

/-- CNT's own rule: SEQUENCE outside COUNT, then FREQ_OVERFLOW at TOTAL = 0xFFFFFFFF, else the count (R52). -/
def State.cntBody (x : Sym) (s : State) : State :=
  if s.phase ≠ .count then s.raise .sequence (encode (.cnt x))
  else if s.total = 0xFFFFFFFF#32 then s.raise .freqOverflow (encode (.cnt x))
  else s.countSymbol x

/-- CNT s (R49, R52). -/
def execCnt (x : Sym) (s : State) : Host.Outcome State Fault Refusal :=
  .next (s.gated (encode (.cnt x)) (State.cntBody x))

end Sys2Proof.Machine
end

