-- ==== Sys2Proof/Machine/TreeBuilder.lean ====
section
/-! DEFINITION. The tree builder (spec 41): BUILD's issue, the node memory and the min-heap merge loop. -/

namespace Sys2Proof.Machine

/-- One entry of the node memory `nm` (R19). `left` and `right` are unused in leaves. -/
structure Node where
  freq : Word
  left : NodeId
  right : NodeId
deriving DecidableEq, Repr

/-- The node memory, ids 0..510 (R8, R19). -/
abbrev NodeMem := Vector Node 511

/-- A node-memory entry with nothing in it (log entry 11). -/
def Node.blank : Node := { freq := 0#32, left := 0#9, right := 0#9 }

/-- `nm[id]`. Id 511 names no entry and no tree uses it (R63, log entry 11). -/
def readNode (nm : NodeMem) (id : NodeId) : Node :=
  if h : id.toNat < 511 then nm[id.toNat] else Node.blank

/-- `nm[id] <- n`. -/
def writeNode (nm : NodeMem) (id : NodeId) (n : Node) : NodeMem :=
  if h : id.toNat < 511 then nm.set id.toNat n else nm

/-- Leaf id = its symbol (R58). -/
def leafId (x : Sym) : NodeId := x.setWidth 9

/-- The id of the k-th internal node, 256 + k (R58). -/
def internalId (k : Nat) : NodeId := BitVec.ofNat 9 (256 + k)

/-- `key(id) = freq(id) * 512 + id`, an unsigned number of 41 bits (R58). -/
def nodeKey (nm : NodeMem) (id : NodeId) : Nat := (readNode nm id).freq.toNat * 512 + id.toNat

/-- `argmin_key` of the set {a} ∪ rest (R11). -/
def argminKey (nm : NodeMem) (a : NodeId) (rest : List NodeId) : NodeId :=
  match rest with
  | [] => a
  | b :: rest' => argminKey nm (if nodeKey nm b < nodeKey nm a then b else a) rest'

/-- `a <- argmin_key(W); W <- W \ {a}` (R61); `none` when W is empty. -/
def extractMin (nm : NodeMem) (work : List NodeId) : Option (NodeId × List NodeId) :=
  match work with
  | [] => none
  | x :: rest => some (argminKey nm x rest, (x :: rest).erase (argminKey nm x rest))

/-- The working storage of the merge engine: node memory, heap contents W, merge index k (R19). How W is laid out is
not architectural (R66). -/
structure MergeState where
  nm : NodeMem
  work : List NodeId
  k : Nat
deriving DecidableEq, Repr

/-- The merge of a (first extracted, left) and b (second extracted, right), with the rest of W (R61). -/
def mergeNodes (m : MergeState) (a b : NodeId) (rest : List NodeId) : MergeState :=
  { nm := writeNode m.nm (internalId m.k)
      { freq := (readNode m.nm a).freq + (readNode m.nm b).freq, left := a, right := b }
    work := internalId m.k :: rest
    k := m.k + 1 }

/-- One turn of the merge loop; `none` when |W| < 2 (R61). -/
def mergeOnce (m : MergeState) : Option MergeState :=
  match extractMin m.nm m.work with
  | none => none
  | some (a, w1) =>
    match extractMin m.nm w1 with
    | none => none
    | some (b, w2) => some (mergeNodes m a b w2)

/-- `while |W| >= 2`, at most `fuel` turns. -/
def mergeLoop (fuel : Nat) (m : MergeState) : MergeState :=
  match fuel with
  | 0 => m
  | fuel + 1 =>
    match mergeOnce m with
    | none => m
    | some m' => mergeLoop fuel m'

/-- `for s in 0..255: nm[s].freq <- fc[s]` (R61). The entries of the 255 internal ids are blank; no tree reads one
before its merge has written it. -/
def loadLeaves (fc : FreqTable) : NodeMem :=
  ⟨(fc.toList.map (fun f => { Node.blank with freq := f }) ++ List.replicate 255 Node.blank).toArray, by
    simp only [List.size_toArray, List.length_append, List.length_map, Vector.length_toList, List.length_replicate]⟩

/-- The engine at the start of a BUILD: one leaf per present symbol in W, k = 0 (R54, R61). -/
def mergeStart (fc : FreqTable) : MergeState :=
  { nm := loadLeaves fc, work := (presentSyms fc).map leafId, k := 0 }

/-- `BuildTree()`, run to its end. 255 turns are enough: 256 leaves need 255 merges (R63, log
entry 10). -/
def buildTree (fc : FreqTable) : MergeState := mergeLoop 255 (mergeStart fc)

/-- `return the one element of W` (R61); `none` only when no symbol is present. -/
def MergeState.root (m : MergeState) : Option NodeId := m.work.head?

/-- BUILD's own rule at issue: SEQUENCE outside COUNT, then EMPTY_INPUT when no symbol is present, else BUSY (R57). -/
def State.buildBody (s : State) : State :=
  if s.phase ≠ .count then s.raise .sequence (encode .build)
  else if s.nsym = 0 then s.raise .emptyInput (encode .build)
  else s.beginLong .build

/-- BUILD: the issue (R49, R57). Its results are committed by `Complete()`. -/
def execBuild (s : State) : Host.Outcome State Fault Refusal :=
  .next (s.gated (encode .build) State.buildBody)

end Sys2Proof.Machine
end

