-- ==== Sys2Proof/Machine/Dispatch.lean ====
section
/-! DEFINITION. One arm per command: what issuing it (a CMD write of its word) does. -/

namespace Sys2Proof.Machine

def exec (i : Instr) (s : State) : Host.Outcome State Fault Refusal :=
  match i with
  | .nop => Sys2Proof.Machine.execNop s
  | .clr => Sys2Proof.Machine.execClr s
  | .cnt x => Sys2Proof.Machine.execCnt x s
  | .build => Sys2Proof.Machine.execBuild s
  | .estart => Sys2Proof.Machine.execEstart s
  | .enc x => Sys2Proof.Machine.execEnc x s

end Sys2Proof.Machine
end

