-- ==== Sys2Proof/Machine/CodeTable.lean ====
section
/-! DEFINITION. The traversal unit and the code-table memory (spec 42), and BuildCommit (R68). -/

namespace Sys2Proof.Machine

/-- `Walk(id, p)`: depth first, left "0", right "1"; a leaf's entry is its path (R69). `fuel` bounds the depth of the
walk; a tree of at most 256 leaves has depth at most 255 (R73, log entry 10). -/
def walk (nm : NodeMem) (fuel : Nat) (id : NodeId) (p : List Bool) (ct : CodeTable) : CodeTable :=
  match fuel with
  | 0 => ct
  | fuel + 1 =>
    if id.toNat < 256 then setEntry ct (id.setWidth 8) (CtEntry.ofBits p)
    else
      walk nm fuel (readNode nm id).right (p ++ [true])
        (walk nm fuel (readNode nm id).left (p ++ [false]) ct)

/-- The table of a finished tree with root r: code "0" for a root that is a leaf (R70), else the walk from the root
with the empty path (R68, R69). -/
def tableFrom (nm : NodeMem) (r : NodeId) : CodeTable :=
  if r.toNat < 256 then setEntry clearedTable (r.setWidth 8) (CtEntry.ofBits [false])
  else walk nm 256 r [] clearedTable

/-- The code table a BUILD makes, a function of the counters alone (R67, R68). -/
def builtTable (fc : FreqTable) : CodeTable :=
  match (buildTree fc).root with
  | none => clearedTable
  | some r => tableFrom (buildTree fc).nm r

/-- `nm[r].freq`, the root's frequency (R68). -/
def builtRootFreq (fc : FreqTable) : Word :=
  match (buildTree fc).root with
  | none => 0#32
  | some r => (readNode (buildTree fc).nm r).freq

/-- `BuildCommit()` (R68). -/
def State.buildCommit (s : State) : State :=
  { s with ct := builtTable s.fc, rootFreq := builtRootFreq s.fc, tvalid := true }

end Sys2Proof.Machine
end

