-- ==== Sys2Proof/Machine/Engine.lean ====
section
/-! DEFINITION. The ENGINE step `Complete()` (R40). -/

namespace Sys2Proof.Machine

/-- The `case inflight of` of R40. The arm for NONE is not in the spec: busy is true exactly when a command is in
flight (R21), so no run reaches it (log entry 7). -/
def State.commit (s : State) : State :=
  match s.inflight with
  | .none => s
  | .build => s.buildCommit
  | .enc x => s.encCommit x

/-- The end of a long command: not busy, and READY, or ERROR when an overrun was recorded meanwhile (R40). -/
def State.endLong (s : State) : State :=
  if s.ovrp then { s with busy := false, inflight := .none, ovrp := false, phase := .error }
  else { s with busy := false, inflight := .none, phase := .ready }

/-- `Complete()` (R40). -/
def State.complete (s : State) : State := s.commit.endLong

/-- The ENGINE's turn: `Complete()` where it is enabled; elsewhere the ENGINE has no step (R40). -/
def engineStep (s : State) : Host.Outcome State Fault Refusal :=
  if s.engineEnabled then .next s.complete else .fault .engineNotEnabled

/-- No host access is pending: the only step left is the ENGINE's, which happens if it is enabled (weak fairness,
R116, log entry 5). -/
def idleStep (s : State) : Host.Outcome State Fault Refusal :=
  if s.engineEnabled then .next s.complete else .refused .noPendingEvent

end Sys2Proof.Machine
end

