-- ==== Sys2Proof/Machine/Port.lean ====
section
/-! DEFINITION. The register port (spec 20): BusRead, BusWrite, `Issue` of a CMD write, and one pending event. -/

namespace Sys2Proof.Machine

/-- `BusRead(off)`: the host gets the register's value; a read of OUT_BIT also pops (R33, R34). -/
def busRead (off : Nat) (s : State) : State :=
  match regAt off with
  | .outBit => (s.logRead off (regValue .outBit s)).popBit
  | r => s.logRead off (regValue r s)

/-- `Issue(w)`: what a CMD write does. A legal word is its command; every other word is the illegal case (R48, R49). -/
def issue (w : Word) (s : State) : Host.Outcome State Fault Refusal :=
  match decode w with
  | .ok i => exec i s
  | .error _ => .next (s.issueIllegal w)

/-- `BusWrite(off, v)`: an effect at CMD and TAB_SEL only; every other write is ignored (R33, R35). -/
def busWrite (off : Nat) (v : Word) (s : State) : Host.Outcome State Fault Refusal :=
  match regAt off with
  | .cmd => issue v s
  | .tabSel => .next (s.setTabSel v)
  | _ => .next s

/-- A HOST step: exactly one BusRead or one BusWrite (R12); an access the port cannot express is refused (R32). -/
def hostStep (a : Access) (s : State) : Host.Outcome State Fault Refusal :=
  match windowOffset s.cfg a with
  | .error r => .refused r
  | .ok off =>
    match a.op with
    | .read => .next (busRead off s)
    | .write v => busWrite off v s

/-- One event: a HOST step, an ENGINE step (R12), or reset (R106). -/
def eventStep (e : Event) (s : State) : Host.Outcome State Fault Refusal :=
  match e with
  | .host a => hostStep a s
  | .engine => engineStep s
  | .reset => .next s.applyReset

/-- The host's CMD write of word w: offset 0x04 of the window (R27). -/
def cmdWrite (c : Config) (w : Word) : Event :=
  .host { addr := c.regBase + 0x04, width := .word, op := .write w }

end Sys2Proof.Machine
end

