-- ==== Sys2Proof/Machine/Step.lean ====
section
/-! DEFINITION. One step: the next pending event, or the ENGINE when no event is pending (R12, R41). -/

namespace Sys2Proof.Machine

/-- One atomic step (R12). The pending events say which agent moves (R4, R41). -/
def step (s : State) : Host.Outcome State Fault Refusal :=
  match s.events with
  | [] => idleStep s
  | e :: rest => eventStep e { s with events := rest }

/-- The state with the host's CMD write of the word as its next event. The block fetches nothing (R14): a command
reaches it as a CMD write, so that is where step takes its next instruction from (log entry 3). -/
def State.withFetchWord (s : State) (nbits w : Nat) : State :=
  { s with events := cmdWrite s.cfg (BitVec.ofNat 32 (w % 2 ^ nbits)) :: s.events }

end Sys2Proof.Machine
end

