-- ==== Sys2Proof/Safety.lean ====
section
/-! DEFINITION. The terms claims use: the invariants of spec 10 section 4, reachable states, the next step, host programs, the
finished tree read as a tree, the output of an encoding pass, and the host's greedy decoder (R88). -/

namespace Sys2Proof.Machine

/-! ### The invariants of every reachable state -/

/-- `Σ_s fc[s]` (R22), as a number that does not wrap. -/
def freqSum (fc : FreqTable) : Nat := (fc.toList.map BitVec.toNat).sum

/-- R21: the long command in flight agrees with BUSY, PHASE and the table, and OBUF is within its capacity. -/
structure LongCommandOk (s : State) : Prop where
  busy_iff : s.busy = true ↔ s.inflight ≠ .none
  busy_phase : s.busy = true → s.phase ≠ .error
  build_phase : s.inflight = .build → s.phase = .count
  enc_ready : ∀ x, s.inflight = .enc x → s.phase = .ready ∧ s.tvalid = true ∧ (entryOf s.ct x).len ≠ 0#8
  fifo_bound : s.obuf.length ≤ s.cfg.obufDepth

/-- R22: TOTAL is the sum of the counters, and bounds each of them. -/
structure CountsOk (s : State) : Prop where
  total_eq : s.total.toNat = freqSum s.fc
  freq_le : ∀ x, (freqOf s.fc x).toNat ≤ s.total.toNat

/-- R23, its first sentence: phase COUNT has no table and an empty pass. -/
def CountPhaseOk (s : State) : Prop :=
  s.phase = .count → s.tvalid = false ∧ s.symcnt = 0#32 ∧ s.bitcnt = 0#64 ∧ s.obuf = [] ∧ s.rootFreq = 0#32

/-- R24: a valid table has a code for exactly the present symbols, and ROOT_FREQ is TOTAL. -/
def TableOk (s : State) : Prop :=
  s.tvalid = true →
    (∀ x, (entryOf s.ct x).len ≠ 0#8 ↔ freqOf s.fc x ≠ 0#32) ∧ s.rootFreq = s.total ∧ 1 ≤ s.nsym

/-- R25: an error code is recorded exactly in phase ERROR, or after an overrun of the command in flight. -/
def ErrOk (s : State) : Prop :=
  s.errCode ≠ .none ↔ s.phase = .error ∨ (s.busy = true ∧ s.ovrp = true)

/-- What every step keeps: R21, R22, R23, R25, and what their preservation needs (the open parameter's bound, the
table being the one BUILD makes of the present counters, no counter about to wrap). -/
structure StateInv (s : State) : Prop where
  cfg_wf : s.cfg.wf = true
  long : LongCommandOk s
  counts : CountsOk s
  count_phase : CountPhaseOk s
  err : ErrOk s
  ovrp_busy : s.ovrp = true → s.busy = true
  ready_table : s.phase = .ready → s.tvalid = true
  build_nonempty : s.inflight = .build → s.nsym ≠ 0
  enc_stat : ∀ x, s.inflight = .enc x → s.symcnt ≠ 0xFFFFFFFF#32
  table_built : s.tvalid = true → s.ct = builtTable s.fc ∧ s.rootFreq = builtRootFreq s.fc ∧ s.nsym ≠ 0
  no_table : s.tvalid = false → s.ct = clearedTable ∧ s.rootFreq = 0#32
  bits_bound : s.bitcnt.toNat ≤ 255 * s.symcnt.toNat

/-- A block after reset on a platform with parameters c, before the events es. -/
def initial (c : Config) (es : List Event) : State := { State.reset with cfg := c, events := es }

/-- A state that some host, some interleaving and some legal parameters reach (R41). -/
inductive Reachable : State → Prop where
  | start (c : Config) (h : c.wf = true) (es : List Event) : Reachable (initial c es)
  | step (s t : State) (hs : Reachable s) (h : Machine.step s = .next t) : Reachable t

/-! ### What the next step is -/

/-- The register offset and value of the BusWrite that is next, if a legal BusWrite is next. -/
def State.nextWrite (s : State) : Option (Nat × Word) :=
  match s.events with
  | .host a :: _ =>
    match windowOffset s.cfg a, a.op with
    | .ok off, .write v => some (off, v)
    | _, _ => none
  | _ => none

/-- The register offset of the BusRead that is next, if a legal BusRead is next. -/
def State.nextRead (s : State) : Option Nat :=
  match s.events with
  | .host a :: _ =>
    match windowOffset s.cfg a, a.op with
    | .ok off, .read => some off
    | _, _ => none
  | _ => none

/-- The command word that is issued next, if a CMD write is next. -/
def State.nextCommand (s : State) : Option Word :=
  match s.nextWrite with
  | some (off, v) => if off = 0x04 then some v else none
  | none => none

/-- The next step is the ENGINE's. -/
def State.nextIsEngine (s : State) : Bool :=
  match s.events with
  | [] => true
  | .engine :: _ => true
  | .host _ :: _ => false
  | .reset :: _ => false

/-- The next step is a reset. -/
def State.nextIsReset (s : State) : Bool :=
  match s.events with
  | .reset :: _ => true
  | _ => false

/-- A 32-bit access of the host to a register offset. -/
def hostRead (c : Config) (off : Nat) : Event := .host { addr := c.regBase + off, width := .word, op := .read }

/-- A 32-bit write of the host to a register offset. -/
def hostWrite (c : Config) (off : Nat) (v : Word) : Event :=
  .host { addr := c.regBase + off, width := .word, op := .write v }

/-! ### Host programs (R50, R51)

A host program is a list of accesses. A pseudo-command whose length depends on what the host reads takes the number of
repeats it makes. -/

/-- A statement of a host program (R50). -/
inductive HostStatement where
  /-- `NOP`, `CLR`, `CNT s`, `BUILD`, `ESTART`, `ENC s`: the write of the command's word. -/
  | command (i : Instr)
  /-- `CMD w`: the write of a raw word. -/
  | cmd (w : Word)
  /-- `WR reg, v`, by the register's offset. -/
  | wr (off : Nat) (v : Word)
  /-- `RD reg`, by the register's offset. -/
  | rd (off : Nat)
deriving DecidableEq, Repr

/-- The bus access a statement stands for (R50). -/
def HostStatement.access (c : Config) (st : HostStatement) : Event :=
  match st with
  | .command i => hostWrite c 0x04 (encode i)
  | .cmd w => hostWrite c 0x04 w
  | .wr off v => hostWrite c off v
  | .rd off => hostRead c off

/-- `WAIT`, where the n-th read of STATUS is the first with BUSY = 0 (R51). -/
def HostStatement.wait (n : Nat) : List HostStatement := List.replicate n (.rd 0x08)

/-- `CNTS "bytes"` (R51). -/
def HostStatement.cnts (bytes : List Sym) : List HostStatement := bytes.map (fun b => .command (.cnt b))

/-- `BUILDW` (R51). -/
def HostStatement.buildw (n : Nat) : List HostStatement := .command .build :: HostStatement.wait n

/-- `ENCW s` (R51). -/
def HostStatement.encw (s : Sym) (n : Nat) : List HostStatement := .command (.enc s) :: HostStatement.wait n

/-- `ENCS "bytes"`, with the number of reads each WAIT makes (R51). -/
def HostStatement.encs (bytes : List (Sym × Nat)) : List HostStatement :=
  bytes.flatMap (fun b => HostStatement.encw b.1 b.2)

/-- `DRAIN`, where the n-th read of OUT_BIT is the first with VALID = 0 (R51). -/
def HostStatement.drain (n : Nat) : List HostStatement := List.replicate n (.rd 0x38)

/-- `RDTAB s` (R51). -/
def HostStatement.rdtab (s : Sym) : List HostStatement :=
  .wr 0x18 (s.setWidth 32) :: .rd 0x1C :: .rd 0x20 :: (List.range 8).map (fun w => .rd (0x40 + 4 * w))

/-- `RDSTATS` (R51). -/
def HostStatement.rdstats : List HostStatement := [.rd 0x28, .rd 0x2C, .rd 0x30]

/-! ### Issue, as R49 writes it -/

/-- The pseudocode of R49, branch by branch, over the effects of the single commands. -/
def issueRule (w : Word) (s : State) : State :=
  if s.busy then
    if w = 0x01000000#32 then s.cleared
    else if w = 0x00000000#32 then s
    else if s.ovrp then s
    else { s with errCode := .cmdOverrun, errSym := w.extractLsb' 0 8, errOp := w.extractLsb' 24 8, ovrp := true }
  else if s.phase = .error then
    if w = 0x01000000#32 then s.cleared
    else if w = 0x04000000#32 ∧ s.tvalid = true then s.startPass
    else s
  else if legal w = false then s.raise .illegalCommand w
  else
    match (w.extractLsb' 24 8).toNat with
    | 0x00 => s
    | 0x01 => s.cleared
    | 0x02 => s.cntBody (w.extractLsb' 0 8)
    | 0x03 => s.buildBody
    | 0x04 => s.estartBody
    | _ => s.encBody (w.extractLsb' 0 8)

/-- The 516 legal words of R47. -/
def legalWords : List Word :=
  [0x00000000#32, 0x01000000#32, 0x03000000#32, 0x04000000#32]
    ++ allSyms.map (fun x => 0x02000000#32 + x.setWidth 32)
    ++ allSyms.map (fun x => 0x05000000#32 + x.setWidth 32)

/-! ### The finished tree, read from the node memory -/

/-- The leaves below a node, left to right; `fuel` bounds the depth. -/
def leavesUnder (nm : NodeMem) (fuel : Nat) (id : NodeId) : List Sym :=
  match fuel with
  | 0 => []
  | fuel + 1 =>
    if id.toNat < 256 then [id.setWidth 8]
    else leavesUnder nm fuel (readNode nm id).left ++ leavesUnder nm fuel (readNode nm id).right

/-- The node a path leads to: false (bit 0) to the left child, true (bit 1) to the right child (R10, R69). -/
def follow (nm : NodeMem) (id : NodeId) (p : List Bool) : Option NodeId :=
  match p with
  | [] => some id
  | b :: rest =>
    if id.toNat < 256 then none
    else follow nm (if b then (readNode nm id).right else (readNode nm id).left) rest

/-- The ids of the internal nodes a merge loop has made. -/
def MergeState.internalIds (m : MergeState) : List NodeId := (List.range m.k).map internalId

/-- Every child link of the internal nodes. -/
def MergeState.children (m : MergeState) : List NodeId :=
  m.internalIds.flatMap (fun n => [(readNode m.nm n).left, (readNode m.nm n).right])

/-! ### The output of an encoding pass -/

/-- The code of symbol x in the table, a bit-string in emission order. -/
def State.codeOf (s : State) (x : Sym) : List Bool := (entryOf s.ct x).bits

/-- The symbols whose ENC the next step completes. -/
def State.encodedNext (s : State) : List Sym :=
  if s.nextIsEngine && s.engineEnabled then
    match s.inflight with
    | .enc x => [x]
    | .build => []
    | .none => []
  else []

/-- The bits the next step pops. -/
def State.poppedNext (s : State) : List Bool :=
  if s.nextRead = some 0x38 then s.obuf.take 1 else []

/-- R86: in a pass that has encoded xs, whose popped bits are `popped`. -/
structure PassOk (s : State) (xs : List Sym) (popped : List Bool) : Prop where
  output : popped ++ s.obuf = xs.flatMap s.codeOf
  symbols : s.symcnt.toNat = xs.length
  bits : s.bitcnt.toNat = (xs.flatMap s.codeOf).length

/-! ### The host's decoder (R88) -/

/-- A symbol whose code is a prefix of the bits. -/
def matchCode (ct : CodeTable) (bits : List Bool) : Option Sym :=
  allSyms.find? (fun x => (entryOf ct x).len != 0#8 && (entryOf ct x).bits.isPrefixOf bits)

/-- Greedy prefix matching: take a matching code off the front until none matches. -/
def greedyDecode (ct : CodeTable) (fuel : Nat) (bits : List Bool) : List Sym :=
  match fuel with
  | 0 => []
  | fuel + 1 =>
    match matchCode ct bits with
    | none => []
    | some x => x :: greedyDecode ct fuel (bits.drop (entryOf ct x).len.toNat)

end Sys2Proof.Machine
end

