-- ==== Sys2Proof/Certificates/Slice0/Obligations.lean ====
section
/-! DEFINITION. The statements for the provers: the spec's numbered rules as claims about the model. -/

open Sys2Proof Sys2Proof.Machine

/-! ### Command words (spec 30) -/

/-- R44 to R46: a word decodes to an instruction exactly when it is that instruction's encoding, over all 2^32 words. -/
def Obligations.DecodedIffEncoded : Prop :=
  ∀ (w : Word) (i : Instr), decode w = .ok i ↔ w = encode i

/-- R47: the legal words are the 516 listed ones, and they are the words the decoder accepts. -/
def Obligations.LegalWordsAreThe516 : Prop :=
  (∀ w, legal w = true ↔ w ∈ legalWords) ∧ legalWords.Nodup ∧ legalWords.length = 516 ∧
    ∀ w, legal w = true ↔ ∃ i, decode w = .ok i

/-- Words written out from R46's patterns and from spec 95 section 2.1, decoded. -/
def Obligations.DecodeOfSpecWords : Prop :=
  decode 0x00000000#32 = .ok .nop ∧ decode 0x01000000#32 = .ok .clr ∧ decode 0x02000061#32 = .ok (.cnt 0x61#8) ∧
    decode 0x03000000#32 = .ok .build ∧ decode 0x04000000#32 = .ok .estart ∧
    decode 0x05000063#32 = .ok (.enc 0x63#8) ∧ decode 0x06000000#32 = .error .unassignedOpcode ∧
    decode 0x0200FF61#32 = .error .reservedBits ∧ decode 0x01000001#32 = .error .symbolBits

/-- R48: what is illegal, and what an illegal word does in COUNT or READY while not busy. -/
def Obligations.IllegalWordsRaiseIllegalCommand : Prop :=
  (∀ w, rsvField w ≠ 0#16 → legal w = false) ∧
    (∀ w, symField w ≠ 0#8 → (opField w).toNat ∈ [0x00, 0x01, 0x03, 0x04] → legal w = false) ∧
    (∀ w, 0x06 ≤ (opField w).toNat → legal w = false) ∧
    ∀ w s, legal w = false → s.busy = false → s.phase ≠ .error →
      issue w s = .next
        { s with
          errCode := .illegalCommand, errSym := w.extractLsb' 0 8, errOp := w.extractLsb' 24 8, phase := .error }

/-! ### Issue and the errors (spec 30, 60) -/

/-- R49: a CMD write is the pseudocode's first branch that applies; and a word discarded while busy leaves the long
command in flight, which completes, commits the same results, and then enters ERROR. -/
def Obligations.IssueFollowsItsPseudocode : Prop :=
  (∀ w s, issue w s = .next (issueRule w s)) ∧
    ∀ w s, s.busy = true → w ≠ 0x00000000#32 → w ≠ 0x01000000#32 →
      ∃ t, issue w s = .next t ∧ t.busy = true ∧ t.inflight = s.inflight ∧ t.ovrp = true ∧
        t.complete.phase = .error ∧ t.complete.busy = false ∧ t.complete.ct = s.complete.ct ∧
        t.complete.tvalid = s.complete.tvalid ∧ t.complete.rootFreq = s.complete.rootFreq ∧
        t.complete.obuf = s.complete.obuf ∧ t.complete.symcnt = s.complete.symcnt ∧
        t.complete.bitcnt = s.complete.bitcnt

/-- R95: which error a command write reports when several conditions hold. -/
def Obligations.ErrorPriority : Prop :=
  (∀ w s t, legal w = false → s.busy = false → s.phase ≠ .error → issue w s = .next t →
      t.errCode = .illegalCommand) ∧
    (∀ x s t, s.busy = false → s.phase = .ready → issue (encode (.cnt x)) s = .next t → t.errCode = .sequence) ∧
    (∀ x s t, s.busy = false → s.phase = .count → issue (encode (.enc x)) s = .next t → t.errCode = .sequence) ∧
    (∀ x s t, s.busy = false → s.phase = .ready → (entryOf s.ct x).len = 0#8 → issue (encode (.enc x)) s = .next t →
      t.errCode = .unencodableSymbol) ∧
    (∀ w s t, s.busy = true → s.ovrp = false → w ≠ encode .nop → w ≠ encode .clr → issue w s = .next t →
      t.errCode = .cmdOverrun) ∧
    ∀ w s t, s.busy = true → s.ovrp = true → w ≠ encode .clr → issue w s = .next t → t = s

/-- R93: a command write that enters ERROR changes ERR and PHASE and nothing else. -/
def Obligations.ErrorsArePrecise : Prop :=
  (∀ e w s, State.raise e w s =
      { s with errCode := e, errSym := w.extractLsb' 0 8, errOp := w.extractLsb' 24 8, phase := .error }) ∧
    ∀ w s t, s.phase ≠ .error → issue w s = .next t → t.phase = .error →
      t = { s with
        errCode := t.errCode, errSym := w.extractLsb' 0 8, errOp := w.extractLsb' 24 8, phase := .error }

/-- R94: where each error code comes from, that a completion detects none, and that no step but a CMD write and reset
changes the code. -/
def Obligations.ErrorsAreRaisedAtIssue : Prop :=
  (∀ w s t, issue w s = .next t → t.errCode ≠ s.errCode →
      t.errCode = .none ∨
        (t.errCode = .cmdOverrun ∧ s.busy = true ∧ t.ovrp = true ∧ t.phase = s.phase) ∨
        (t.errCode ≠ .cmdOverrun ∧ s.busy = false ∧ t.phase = .error)) ∧
    (∀ s : State, s.complete.errCode = s.errCode ∧ s.complete.errSym = s.errSym ∧ s.complete.errOp = s.errOp) ∧
    (∀ s : State, s.complete.phase = .error ↔ s.ovrp = true) ∧
    ∀ s t, Machine.step s = .next t → t.errCode ≠ s.errCode → (∃ w, s.nextCommand = some w) ∨ s.nextIsReset = true

/-- R96: in phase ERROR every CMD write but NOP, CLR and a permitted ESTART is discarded with no change; register
reads and TAB_SEL writes do not depend on the phase, but for STATUS.PHASE. -/
def Obligations.ErrorPhaseDiscardsCommands : Prop :=
  (∀ w s, s.phase = .error → s.busy = false → w ≠ encode .clr → ¬ (w = encode .estart ∧ s.tvalid = true) →
      issue w s = .next s) ∧
    (∀ (p : Phase) (r : Reg) (s : State), r ≠ .status → regValue r { s with phase := p } = regValue r s) ∧
    (∀ (p : Phase) (s : State) (i : Nat), i ≠ 2 → i ≠ 3 →
      (regValue .status { s with phase := p }).getLsbD i = (regValue .status s).getLsbD i) ∧
    ∀ (v : Word) (s : State), busWrite 0x18 v s = .next { s with tabSel := v.extractLsb' 0 8 }

/-- R97: the ways out of ERROR, and the TVALID with which each phase's errors arise. -/
def Obligations.LeavingTheErrorPhase : Prop :=
  (∀ s t, StateInv s → s.phase = .error → Machine.step s = .next t → t.phase ≠ .error →
      (s.nextCommand = some (encode .estart) ∧ s.tvalid = true ∧ t.phase = .ready ∧ t.tvalid = true ∧
        t.errCode = .none ∧ t.obuf = [] ∧ t.symcnt = 0#32 ∧ t.bitcnt = 0#64) ∨
        (s.nextCommand = some (encode .clr) ∧ t.phase = .count) ∨ s.nextIsReset = true) ∧
    (∀ w s t, StateInv s → s.phase = .count → issue w s = .next t → t.phase = .error →
      t.tvalid = false ∧
        t.errCode ∈ [ErrCode.illegalCommand, ErrCode.sequence, ErrCode.freqOverflow, ErrCode.emptyInput] ∧
        (t.errCode = .sequence → w = encode .estart ∨ ∃ x, w = encode (.enc x))) ∧
    (∀ w s t, StateInv s → s.phase = .ready → issue w s = .next t → t.phase = .error →
      t.tvalid = true ∧
        t.errCode ∈ [ErrCode.illegalCommand, ErrCode.sequence, ErrCode.unencodableSymbol, ErrCode.statOverflow]) ∧
    ∀ s : State, StateInv s → s.busy = true → s.complete.phase = .error → s.complete.tvalid = true

/-! ### The commands: results and frames (spec 40 to 44) -/

/-- R90: NOP changes nothing, in every state; no other word with OP 0x00 is NOP. -/
def Obligations.NopChangesNothing : Prop :=
  encode .nop = 0x00000000#32 ∧ (∀ s, exec .nop s = .next s) ∧
    ∀ w s, opField w = 0x00#8 → w ≠ 0x00000000#32 →
      (s.busy = false → s.phase ≠ .error → issue w s = .next (s.raise .illegalCommand w)) ∧
        (s.busy = false → s.phase = .error → issue w s = .next s) ∧
        (s.busy = true → s.ovrp = false →
          issue w s = .next
            { s with
              errCode := .cmdOverrun, errSym := w.extractLsb' 0 8, errOp := w.extractLsb' 24 8, ovrp := true })

/-- CLR in every state, and its agreement with the reset state but for TAB_SEL (spec 44). The clauses that the
parameters, the pending events and the read values stay are the model's: log entries 2, 1 and 6 (DESIGN CHOICE). -/
def Obligations.ClrClearsTheDatapath : Prop :=
  encode .clr = 0x01000000#32 ∧
    (∀ s, ∃ t, exec .clr s = .next t ∧ (∀ x, freqOf t.fc x = 0#32) ∧
      (∀ x, (entryOf t.ct x).len = 0#8 ∧ (entryOf t.ct x).code = 0#255) ∧
      t.busy = false ∧ t.inflight = .none ∧ t.ovrp = false ∧ t.total = 0#32 ∧ t.rootFreq = 0#32 ∧ t.tvalid = false ∧
      t.symcnt = 0#32 ∧ t.bitcnt = 0#64 ∧ t.obuf = [] ∧ t.errCode = .none ∧ t.errSym = 0#8 ∧ t.errOp = 0#8 ∧
      t.phase = .count ∧ t.hold = false ∧ regValue .status t = 0#32 ∧ regValue .nsym t = 0#32 ∧
      t.tabSel = s.tabSel ∧ t.cfg = s.cfg ∧ t.events = s.events ∧ t.readLog = s.readLog) ∧
    ∀ s, exec .clr s =
      .next { State.reset with tabSel := s.tabSel, cfg := s.cfg, events := s.events, readLog := s.readLog }

/-- R52: CNT counts one occurrence in COUNT; its two errors; that `fc[s]` does not wrap where R22 holds; NSYM. -/
def Obligations.CntCountsOneSymbol : Prop :=
  (∀ x : Sym, decode (0x02000000#32 + x.setWidth 32) = .ok (.cnt x)) ∧
    (∀ (x : Sym) (s : State), s.busy = false → s.phase = .count → s.total ≠ 0xFFFFFFFF#32 →
      ∃ t, exec (.cnt x) s = .next t ∧ freqOf t.fc x = freqOf s.fc x + 1#32 ∧
        (∀ y, y ≠ x → freqOf t.fc y = freqOf s.fc y) ∧ t.total = s.total + 1#32 ∧
        t = { s with fc := t.fc, total := t.total } ∧
        (CountsOk s → (freqOf t.fc x).toNat = (freqOf s.fc x).toNat + 1 ∧ t.total.toNat = s.total.toNat + 1 ∧
          t.nsym = if freqOf s.fc x = 0#32 then s.nsym + 1 else s.nsym)) ∧
    (∀ x s, s.busy = false → s.phase = .ready →
      exec (.cnt x) s = .next (s.raise .sequence (0x02000000#32 + x.setWidth 32))) ∧
    (∀ x s, s.busy = false → s.phase = .count → s.total = 0xFFFFFFFF#32 →
      exec (.cnt x) s = .next (s.raise .freqOverflow (0x02000000#32 + x.setWidth 32))) ∧
    (∀ x s, s.busy = false → s.phase = .error → exec (.cnt x) s = .next s) ∧
    (∀ x s, s.busy = true → exec (.cnt x) s = .next (s.overrun (0x02000000#32 + x.setWidth 32))) ∧
    ∃ t, exec (.cnt 0x61#8) State.reset = .next t ∧ freqOf t.fc 0x61#8 = 1#32 ∧ t.total = 1#32 ∧ t.nsym = 1

/-- R57: BUILD's issue in COUNT, its two errors, and what its completion does. -/
def Obligations.BuildIssuesAndCompletes : Prop :=
  decode 0x03000000#32 = .ok .build ∧
    (∀ s, s.busy = false → s.phase = .count → s.nsym ≠ 0 →
      exec .build s = .next { s with busy := true, inflight := .build }) ∧
    (∀ s, s.busy = false → s.phase = .ready → exec .build s = .next (s.raise .sequence 0x03000000#32)) ∧
    (∀ s, s.busy = false → s.phase = .count → s.nsym = 0 →
      exec .build s = .next (s.raise .emptyInput 0x03000000#32)) ∧
    (∀ s, s.busy = true → s.inflight = .build →
      engineStep s = .next
        { s with
          ct := builtTable s.fc, rootFreq := builtRootFreq s.fc, tvalid := true, busy := false, inflight := .none,
          ovrp := false, phase := if s.ovrp then .error else .ready }) ∧
    ∀ s : State, s.fc = setFreq (setFreq (setFreq clearedFreq 0x61#8 3#32) 0x62#8 2#32) 0x63#8 1#32 →
      builtRootFreq s.fc = 6#32

/-- R80: ESTART starts a pass in READY, and in ERROR with TVALID = 1; its errors; what it keeps. -/
def Obligations.EstartStartsAPass : Prop :=
  decode 0x04000000#32 = .ok .estart ∧
    (∀ s, s.busy = false → (s.phase = .ready ∨ s.phase = .error ∧ s.tvalid = true) →
      exec .estart s = .next
        { s with
          obuf := [], symcnt := 0#32, bitcnt := 0#64, errCode := .none, errSym := 0#8, errOp := 0#8,
          phase := .ready }) ∧
    (∀ s, s.busy = false → s.phase = .count → exec .estart s = .next (s.raise .sequence 0x04000000#32)) ∧
    (∀ s, s.busy = false → s.phase = .error → s.tvalid = false → exec .estart s = .next s) ∧
    ∀ s, s.busy = true → exec .estart s = .next (s.overrun 0x04000000#32)

/-- R82: ENC's issue in READY, its three errors in their order, and that a code always fits an empty OBUF. -/
def Obligations.EncIssues : Prop :=
  (∀ x : Sym, decode (0x05000000#32 + x.setWidth 32) = .ok (.enc x)) ∧
    (∀ x s, s.busy = false → s.phase = .ready → (entryOf s.ct x).len ≠ 0#8 → s.symcnt ≠ 0xFFFFFFFF#32 →
      exec (.enc x) s = .next { s with busy := true, inflight := .enc x }) ∧
    (∀ x s, s.busy = false → s.phase = .count →
      exec (.enc x) s = .next (s.raise .sequence (0x05000000#32 + x.setWidth 32))) ∧
    (∀ x s, s.busy = false → s.phase = .ready → (entryOf s.ct x).len = 0#8 →
      exec (.enc x) s = .next (s.raise .unencodableSymbol (0x05000000#32 + x.setWidth 32))) ∧
    (∀ x s, s.busy = false → s.phase = .ready → (entryOf s.ct x).len ≠ 0#8 → s.symcnt = 0xFFFFFFFF#32 →
      exec (.enc x) s = .next (s.raise .statOverflow (0x05000000#32 + x.setWidth 32))) ∧
    (∀ (x : Sym) (s : State), (s.raise .unencodableSymbol (0x05000000#32 + x.setWidth 32)).errSym = x) ∧
    ∀ (x : Sym) (s : State), s.cfg.wf = true → s.busy = true → s.inflight = .enc x → s.obuf = [] → s.engineEnabled = true

/-- R83: the completion of ENC x appends the code's bits in code order and counts the symbol and its bits; where the
invariants hold, neither counter wraps. -/
def Obligations.EncCommitAppendsTheCode : Prop :=
  ∀ x s, s.busy = true → s.inflight = .enc x → s.hold = false →
    ∃ t, engineStep s = .next t ∧ t.obuf.take s.obuf.length = s.obuf ∧
      t.obuf.length = s.obuf.length + (entryOf s.ct x).len.toNat ∧
      (∀ i, i < (entryOf s.ct x).len.toNat →
        t.obuf[s.obuf.length + i]? = some ((entryOf s.ct x).code.getLsbD i)) ∧
      t.symcnt = s.symcnt + 1#32 ∧ t.bitcnt = s.bitcnt + (entryOf s.ct x).len.setWidth 64 ∧
      (StateInv s → t.symcnt.toNat = s.symcnt.toNat + 1 ∧
        t.bitcnt.toNat = s.bitcnt.toNat + (entryOf s.ct x).len.toNat)

/-- The frame of the commands as a whole: no command changes TAB_SEL or the model's environment; only CNT and CLR
change the counters; only CLR changes the table, TVALID and ROOT_FREQ; only ESTART and CLR change OBUF, SYMCNT and
BITCNT; only BUILD, ENC and CLR change BUSY and the command in flight. -/
def Obligations.CommandFrames : Prop :=
  ∀ i s t, exec i s = .next t →
    (t.tabSel = s.tabSel ∧ t.cfg = s.cfg ∧ t.events = s.events ∧ t.readLog = s.readLog) ∧
      (i ≠ .clr → (∀ x, i ≠ .cnt x) → t.fc = s.fc ∧ t.total = s.total) ∧
      (∀ x, i = .cnt x → ∀ y, y ≠ x → freqOf t.fc y = freqOf s.fc y) ∧
      (i ≠ .clr → t.ct = s.ct ∧ t.tvalid = s.tvalid ∧ t.rootFreq = s.rootFreq) ∧
      (i ≠ .clr → i ≠ .estart → t.obuf = s.obuf ∧ t.symcnt = s.symcnt ∧ t.bitcnt = s.bitcnt) ∧
      (i ≠ .clr → i ≠ .build → (∀ x, i ≠ .enc x) → t.busy = s.busy ∧ t.inflight = s.inflight) ∧
      (i ≠ .clr → s.busy = true → t.phase = s.phase)

/-- R92's numbers, and that ERR.SYM and ERR.OP are the fields of the word that caused the error. -/
def Obligations.ErrorCodeNumbers : Prop :=
  [ErrCode.none, ErrCode.emptyInput, ErrCode.unencodableSymbol, ErrCode.illegalCommand, ErrCode.sequence,
      ErrCode.freqOverflow, ErrCode.statOverflow, ErrCode.cmdOverrun].map ErrCode.bits
      = [0#4, 1#4, 2#4, 3#4, 4#4, 5#4, 6#4, 7#4] ∧
    (∀ c : ErrCode, c.bits.toNat < 8) ∧
    ∀ w s t, issue w s = .next t → t.errCode ≠ .none → t.errCode ≠ s.errCode →
      t.errSym = w.extractLsb' 0 8 ∧ t.errOp = w.extractLsb' 24 8

/-! ### The ENGINE (spec 20) -/

/-- R40: `Complete()` is enabled exactly when busy and not hold; what it does to BUSY, PHASE and OVRP; and that the
host's reads may go on while a command is in flight. -/
def Obligations.CompleteEndsTheLongCommand : Prop :=
  (∀ s, (∃ t, engineStep s = .next t) ↔ s.busy = true ∧ s.hold = false) ∧
    (∀ s t, engineStep s = .next t →
      t = s.complete ∧ t.busy = false ∧ t.inflight = .none ∧ t.ovrp = false ∧
        t.phase = (if s.ovrp then Phase.error else Phase.ready)) ∧
    (∀ s t, engineStep s = .next t → s.inflight = .build →
      t.ct = builtTable s.fc ∧ t.rootFreq = builtRootFreq s.fc ∧ t.tvalid = true) ∧
    (∀ s t x, engineStep s = .next t → s.inflight = .enc x →
      t.obuf = s.obuf ++ s.codeOf x ∧ t.symcnt = s.symcnt + 1#32 ∧
        t.bitcnt = s.bitcnt + (entryOf s.ct x).len.setWidth 64) ∧
    ∀ s off, (busRead off s).busy = s.busy ∧ (busRead off s).inflight = s.inflight

/-- R42: BUSY falls only at the command's `Complete()`, at CLR or at reset. -/
def Obligations.LongCommandEndsOnlyAtCompletion : Prop :=
  ∀ s t, s.busy = true → Machine.step s = .next t → t.busy = false →
    (s.nextIsEngine = true ∧ s.hold = false) ∨ s.nextCommand = some (encode .clr) ∨ s.nextIsReset = true

/-- R29: while a long command is in flight, no host step but CLR changes a result register; OUT_LEVEL and OUT_BIT
change only by an OUT_BIT read, the lookup readout only by a TAB_SEL write, ERR and STATUS.OVRP by an overrun. -/
def Obligations.BusyShowsNoResult : Prop :=
  ∀ s t, s.busy = true → Machine.step s = .next t → s.nextIsEngine = false → s.nextIsReset = false →
    s.nextCommand ≠ some (encode .clr) →
    (∀ r ∈ [Reg.id, Reg.cmd, Reg.total, Reg.nsym, Reg.rootFreq, Reg.symcnt, Reg.bitcntLo, Reg.bitcntHi, Reg.param],
        regValue r t = regValue r s) ∧
      (s.nextRead ≠ some 0x38 → regValue .outLevel t = regValue .outLevel s ∧ regValue .outBit t = regValue .outBit s) ∧
      ((∀ v, s.nextWrite ≠ some (0x18, v)) →
        ∀ r ∈ [Reg.tabSel, Reg.tabFreq, Reg.tabInfo], regValue r t = regValue r s) ∧
      ((∀ v, s.nextWrite ≠ some (0x18, v)) → ∀ w, regValue (.tabCode w) t = regValue (.tabCode w) s) ∧
      (regValue .err t ≠ regValue .err s → s.ovrp = false ∧ t.ovrp = true ∧ t.errCode = .cmdOverrun) ∧
      t.busy = true ∧ t.phase = s.phase ∧ t.tvalid = s.tvalid

/-- R84: while an ENC holds, the ENGINE has no step, STATUS.HOLD reads 1, and no host step but an OUT_BIT read, CLR
or reset ends the hold; the ENC stays in flight and no bit of OBUF is lost. -/
def Obligations.HoldEndsOnlyByDrainOrClear : Prop :=
  ∀ s x, s.busy = true → s.inflight = .enc x → s.cfg.obufDepth - s.obuf.length < (entryOf s.ct x).len.toNat →
    s.hold = true ∧ (regValue .status s).getLsbD 1 = true ∧ engineStep s = .fault .engineNotEnabled ∧
      ∀ t, Machine.step s = .next t → s.nextRead ≠ some 0x38 → s.nextCommand ≠ some (encode .clr) →
        s.nextIsReset = false → t.hold = true ∧ t.busy = true ∧ t.inflight = .enc x ∧ t.obuf = s.obuf

/-- R111 with D30: enough OUT_BIT reads always lift a hold; as many reads as OBUF has bits are enough. -/
def Obligations.DrainLiftsTheHold : Prop :=
  ∀ s rest, s.cfg.wf = true → s.busy = true → s.inflight ≠ .none →
    s.events = List.replicate s.obuf.length (hostRead s.cfg 0x38) ++ rest →
    ∃ t, core.run s.obuf.length s = .next t ∧ t.engineEnabled = true ∧ t.events = rest ∧ t.obuf = [] ∧
      t.inflight = s.inflight ∧
      t.readLog.map ReadResult.value
        = (s.obuf.map (fun b => if b then 0x80000001#32 else 0x80000000#32)).reverse
          ++ s.readLog.map ReadResult.value

/-! ### The step -/

/-- A CMD write of a legal word runs the instruction it decodes to: step is exec, after the event is taken off. -/
def Obligations.StepRunsTheDecodedCommand : Prop :=
  (∀ s w i rest, s.events = hostWrite s.cfg 0x04 w :: rest → decode w = .ok i →
      Machine.step s = exec i { s with events := rest }) ∧
    (∀ s w e rest, s.events = hostWrite s.cfg 0x04 w :: rest → decode w = .error e →
      Machine.step s = .next (State.issueIllegal w { s with events := rest })) ∧
    (∀ s w i, decodeTableWord 32 w = some i → Machine.step (s.withFetchWord 32 w) = exec i s) ∧
    (∀ s rest, s.events = .engine :: rest → Machine.step s = engineStep { s with events := rest }) ∧
    ∀ s, s.events = [] → s.engineEnabled = true → Machine.step s = .next s.complete

/-! ### The register port (spec 10, 20) -/

/-- R32: exactly the accesses of 32 bits at an aligned offset inside the window have a step. -/
def Obligations.IllFormedAccessesAreRefused : Prop :=
  ∀ a s,
    ((∃ r, hostStep a s = .refused r) ↔
        ¬ (s.cfg.regBase ≤ a.addr ∧ accessWf (a.addr - s.cfg.regBase) a.width.numBits = true)) ∧
      (s.cfg.regBase ≤ a.addr → accessWf (a.addr - s.cfg.regBase) a.width.numBits = true →
        ∃ t, hostStep a s = .next t)

/-- R33: unmapped offsets read 0; writes to unmapped offsets and to read-only registers are ignored; CMD reads 0. -/
def Obligations.UnmappedAndReadOnlyAccesses : Prop :=
  (∀ off, 0x60 ≤ off → off ≤ 0xFC → regValue (regAt off) = (fun _ => 0#32) ∧
      ∀ s, busRead off s = { s with readLog := { offset := off, value := 0#32 } :: s.readLog }) ∧
    (∀ off v s, off ≠ 0x04 → off ≠ 0x18 → busWrite off v s = .next s) ∧
    ∀ s, regValue (regAt 0x04) s = 0#32

/-- A BusRead returns the register's value; at OUT_BIT it pops the head of OBUF; nowhere else has it an effect (spec 20,
section 1). Where a returned value stands, its order and its recorded offset are the model's `readLog`: log entry 6
(DESIGN CHOICE). -/
def Obligations.BusReadReturnsAndPops : Prop :=
  (∀ s b rest, s.obuf = b :: rest →
      busRead 0x38 s =
        { s with
          obuf := rest,
          readLog := { offset := 0x38, value := if b then 0x80000001#32 else 0x80000000#32 } :: s.readLog }) ∧
    (∀ s, s.obuf = [] →
      busRead 0x38 s = { s with readLog := { offset := 0x38, value := 0x00000000#32 } :: s.readLog }) ∧
    ∀ s off, off ≠ 0x38 →
      busRead off s = { s with readLog := { offset := off, value := regValue (regAt off) s } :: s.readLog }

/-- R35: a BusWrite has an effect at CMD and TAB_SEL only; a TAB_SEL write is accepted in every state. -/
def Obligations.BusWriteEffects : Prop :=
  (∀ v s, busWrite 0x04 v s = issue v s) ∧
    (∀ v s, busWrite 0x18 v s = .next { s with tabSel := v.extractLsb' 0 8 }) ∧
    (∀ off v s, off ≠ 0x04 → off ≠ 0x18 → busWrite off v s = .next s) ∧
    ∀ s v rest, s.events = hostWrite s.cfg 0x18 v :: rest →
      Machine.step s = .next { s with tabSel := v.extractLsb' 0 8, events := rest }

/-- R27: what each register reads, field by field, and what a write to it does; bits not listed read 0. -/
def Obligations.RegisterMapFields : Prop :=
  ∀ s : State,
    regValue (regAt 0x00) s = 0x48554631#32 ∧ regValue (regAt 0x04) s = 0#32 ∧
      ((regValue (regAt 0x08) s).getLsbD 0 = s.busy ∧ (regValue (regAt 0x08) s).getLsbD 1 = s.hold ∧
        (regValue (regAt 0x08) s).extractLsb' 2 2
          = (match s.phase with | .count => 0#2 | .ready => 1#2 | .error => 2#2) ∧
        (regValue (regAt 0x08) s).getLsbD 4 = s.tvalid ∧ (regValue (regAt 0x08) s).getLsbD 5 = s.ovrp ∧
        (regValue (regAt 0x08) s).extractLsb' 6 26 = 0#26) ∧
      ((regValue (regAt 0x0C) s).extractLsb' 0 4 = s.errCode.bits ∧
        (regValue (regAt 0x0C) s).extractLsb' 4 4 = 0#4 ∧ (regValue (regAt 0x0C) s).extractLsb' 8 8 = s.errSym ∧
        (regValue (regAt 0x0C) s).extractLsb' 16 8 = s.errOp ∧ (regValue (regAt 0x0C) s).extractLsb' 24 8 = 0#8) ∧
      regValue (regAt 0x10) s = s.total ∧
      (regValue (regAt 0x14) s).toNat = s.nsym ∧ s.nsym ≤ 256 ∧
      (regValue (regAt 0x18) s).toNat = s.tabSel.toNat ∧ regValue (regAt 0x1C) s = freqOf s.fc s.tabSel ∧
      ((regValue (regAt 0x20) s).extractLsb' 0 8 = (if s.tvalid then (entryOf s.ct s.tabSel).len else 0#8) ∧
        (regValue (regAt 0x20) s).getLsbD 8 = decide (freqOf s.fc s.tabSel ≠ 0#32) ∧
        (regValue (regAt 0x20) s).getLsbD 9 = s.tvalid ∧ (regValue (regAt 0x20) s).extractLsb' 10 22 = 0#22) ∧
      regValue (regAt 0x24) s = s.rootFreq ∧ regValue (regAt 0x28) s = s.symcnt ∧
      (regValue (regAt 0x30) s).toNat * 2 ^ 32 + (regValue (regAt 0x2C) s).toNat = s.bitcnt.toNat ∧
      (s.cfg.wf = true → s.obuf.length ≤ s.cfg.obufDepth → (regValue (regAt 0x34) s).toNat = s.obuf.length) ∧
      (s.obuf = [] → regValue (regAt 0x38) s = 0#32) ∧
      (∀ b rest, s.obuf = b :: rest → regValue (regAt 0x38) s = if b then 0x80000001#32 else 0x80000000#32) ∧
      (s.cfg.wf = true → (regValue (regAt 0x3C) s).toNat = s.cfg.obufDepth) ∧
      (∀ w j : Nat, w < 8 → j < 32 →
        (regValue (regAt (0x40 + 4 * w)) s).getLsbD j
          = (s.tvalid && (entryOf s.ct s.tabSel).code.getLsbD (32 * w + j))) ∧
      (busRead 0x38 s).obuf = s.obuf.tail ∧ (∀ v, busWrite 0x04 v s = issue v s) ∧
      (∀ v, busWrite 0x18 v s = .next { s with tabSel := v.extractLsb' 0 8 }) ∧
      ∀ off v, off ≠ 0x04 → off ≠ 0x18 → busWrite off v s = .next s

/-- R28: TAB_CODE7 bit 31 reads 0 in every state. -/
def Obligations.TabCode7TopBitIsZero : Prop :=
  ∀ s : State, (regValue (regAt 0x5C) s).getLsbD 31 = false

/-- R38: every read but OUT_BIT's is idempotent: it leaves the block as it was, and repeated it returns the same. -/
def Obligations.ReadsAreIdempotent : Prop :=
  ∀ s off, off ≠ 0x38 →
    (busRead off s) = { s with readLog := (busRead off s).readLog } ∧
      (busRead off (busRead off s)).readLog.head? = (busRead off s).readLog.head?

/-- R18: NSYM counts the symbols with a nonzero counter; `hold` is its definition. -/
def Obligations.DerivedValues : Prop :=
  ∀ s : State, s.nsym = (Finset.univ.filter (fun x : Sym => freqOf s.fc x ≠ 0#32)).card ∧ s.nsym ≤ 256 ∧
    (s.hold = true ↔
      s.busy = true ∧ ∃ x, s.inflight = .enc x ∧ s.cfg.obufDepth - s.obuf.length < (entryOf s.ct x).len.toNat)

/-! ### Reset (spec 70) -/

/-- A reset from any state gives the reset table's values (spec 10, section 6); every register but ID and PARAM reads 0
then; the reset is one event (spec 70, section 1), and CLR right after it changes nothing (spec 70, section 2). That the
platform's parameters stay is the model's reading: log entry 8 (DEDUCED). -/
def Obligations.ResetLeavesTheTableOfR30 : Prop :=
  ∀ s rest, s.events = .reset :: rest →
    ∃ t, Machine.step s = .next t ∧ t.phase = .count ∧ t.busy = false ∧ t.inflight = .none ∧ t.ovrp = false ∧
      t.tvalid = false ∧ (∀ x, freqOf t.fc x = 0#32) ∧ t.total = 0#32 ∧ t.nsym = 0 ∧
      (∀ x, (entryOf t.ct x).len = 0#8 ∧ (entryOf t.ct x).code = 0#255) ∧ t.rootFreq = 0#32 ∧ t.symcnt = 0#32 ∧
      t.bitcnt = 0#64 ∧ t.obuf = [] ∧ t.errCode = .none ∧ t.errSym = 0#8 ∧ t.errOp = 0#8 ∧ t.tabSel = 0#8 ∧
      t.hold = false ∧ t.cfg = s.cfg ∧ (∀ r, r ≠ .id → r ≠ .param → regValue r t = 0#32) ∧
      regValue .id t = 0x48554631#32 ∧ regValue .param t = regValue .param s ∧ exec .clr t = .next t

/-! ### Invariants (spec 10, section 4) -/

/-- The invariants hold right after reset, whatever the legal parameters and the events to come. -/
def Obligations.ResetMeetsTheInvariants : Prop :=
  ∀ c es, c.wf = true → StateInv (initial c es)

/-- Every step from every state that meets the invariants keeps them. -/
def Obligations.StepKeepsTheInvariants : Prop :=
  ∀ s t, StateInv s → Machine.step s = .next t → StateInv t

/-- R21, of every reachable state. -/
def Obligations.ReachableLongCommandState : Prop :=
  ∀ s, Reachable s →
    (s.busy = true ↔ s.inflight ≠ .none) ∧ (s.busy = true → s.phase ≠ .error) ∧
      (s.inflight = .build → s.phase = .count) ∧
      (∀ x, s.inflight = .enc x → s.phase = .ready ∧ s.tvalid = true ∧ (entryOf s.ct x).len ≠ 0#8) ∧
      s.obuf.length ≤ s.cfg.obufDepth

/-- R22, of every reachable state. -/
def Obligations.ReachableTotalIsTheSum : Prop :=
  ∀ s, Reachable s →
    s.total.toNat = freqSum s.fc ∧ s.total.toNat ≤ 2 ^ 32 - 1 ∧ ∀ x, (freqOf s.fc x).toNat ≤ s.total.toNat

/-- R23, of every reachable state and every step from one. -/
def Obligations.ReachableCountPhase : Prop :=
  ∀ s, Reachable s →
    (s.phase = .count → s.tvalid = false ∧ s.symcnt = 0#32 ∧ s.bitcnt = 0#64 ∧ s.obuf = [] ∧ s.rootFreq = 0#32) ∧
      ∀ t, Machine.step s = .next t →
        (t.fc ≠ s.fc ∨ t.total ≠ s.total →
          (∃ x, s.nextCommand = some (encode (.cnt x)) ∧ s.phase = .count) ∨
            s.nextCommand = some (encode .clr) ∨ s.nextIsReset = true) ∧
        (s.tvalid = true → t.tvalid = true → t.fc = s.fc ∧ t.total = s.total)

/-- R24, of every reachable state. -/
def Obligations.ReachableValidTable : Prop :=
  ∀ s, Reachable s → s.tvalid = true →
    (∀ x, (entryOf s.ct x).len ≠ 0#8 ↔ freqOf s.fc x ≠ 0#32) ∧ s.rootFreq = s.total ∧ 1 ≤ s.nsym

/-- R25, of every reachable state. -/
def Obligations.ReachableErrorCode : Prop :=
  ∀ s, Reachable s → (s.errCode ≠ .none ↔ s.phase = .error ∨ (s.busy = true ∧ s.ovrp = true))

/-- R77: only a BUILD's completion, CLR and reset write the code-table memory; a valid table changes only by CLR or
reset. -/
def Obligations.CodeTableWriters : Prop :=
  (∀ s t, Machine.step s = .next t → t.ct ≠ s.ct →
      (s.nextIsEngine = true ∧ s.inflight = .build) ∨ s.nextCommand = some (encode .clr) ∨ s.nextIsReset = true) ∧
    ∀ s t, StateInv s → s.tvalid = true → Machine.step s = .next t → t.ct ≠ s.ct →
      s.nextCommand = some (encode .clr) ∨ s.nextIsReset = true

/-- R16, R35, R91: TAB_SEL changes only by a TAB_SEL write or reset; the parameters never change. -/
def Obligations.TabSelWriters : Prop :=
  ∀ s t, Machine.step s = .next t →
    t.cfg = s.cfg ∧ (t.tabSel ≠ s.tabSel → s.nextIsReset = true ∨ ∃ v, s.nextWrite = some (0x18, v))

/-! ### The merge engine (spec 41) -/

/-- R58, R60: keys order nodes by frequency, then leaves before internal nodes, leaves by symbol, internal nodes by
the order they were made. -/
def Obligations.TieBreakOrder : Prop :=
  (∀ nm a b, (readNode nm a).freq.toNat < (readNode nm b).freq.toNat → nodeKey nm a < nodeKey nm b) ∧
    (∀ nm (x y : Sym), (readNode nm (leafId x)).freq = (readNode nm (leafId y)).freq → x.toNat < y.toNat →
      nodeKey nm (leafId x) < nodeKey nm (leafId y)) ∧
    (∀ nm (x : Sym) k, k < 255 → (readNode nm (leafId x)).freq = (readNode nm (internalId k)).freq →
      nodeKey nm (leafId x) < nodeKey nm (internalId k)) ∧
    ∀ nm j k, j < k → k < 255 → (readNode nm (internalId j)).freq = (readNode nm (internalId k)).freq →
      nodeKey nm (internalId j) < nodeKey nm (internalId k)

/-- R59, R61: at every turn of a BUILD's merge loop no id and no key occurs twice, and an extraction takes the one
node of least key and leaves the others. -/
def Obligations.ExtractionTakesTheLeastKey : Prop :=
  ∀ fc n, (mergeLoop n (mergeStart fc)).work.Nodup ∧
    (∀ a ∈ (mergeLoop n (mergeStart fc)).work, ∀ b ∈ (mergeLoop n (mergeStart fc)).work,
      nodeKey (mergeLoop n (mergeStart fc)).nm a = nodeKey (mergeLoop n (mergeStart fc)).nm b → a = b) ∧
    ((mergeLoop n (mergeStart fc)).work ≠ [] →
      ∃ a rest, extractMin (mergeLoop n (mergeStart fc)).nm (mergeLoop n (mergeStart fc)).work = some (a, rest) ∧
        (a :: rest).Perm (mergeLoop n (mergeStart fc)).work ∧
        ∀ b ∈ rest, nodeKey (mergeLoop n (mergeStart fc)).nm a < nodeKey (mergeLoop n (mergeStart fc)).nm b)

/-- R62, R63: n present symbols take exactly n − 1 merges; the heap and the node memory stay within their sizes; the
root is an internal node exactly when n ≥ 2, and with n = 1 it is the leaf. -/
def Obligations.MergeCounts : Prop :=
  ∀ fc, 1 ≤ (presentSyms fc).length →
    (buildTree fc).k = (presentSyms fc).length - 1 ∧
      (∀ n, (mergeLoop n (mergeStart fc)).work.length ≤ 256 ∧
        (mergeLoop n (mergeStart fc)).work.length + (mergeLoop n (mergeStart fc)).k = (presentSyms fc).length ∧
        ∀ id ∈ (mergeLoop n (mergeStart fc)).work, id.toNat < 256 + (mergeLoop n (mergeStart fc)).k ∧ id.toNat ≤ 510) ∧
      ∃ r, (buildTree fc).work = [r] ∧ (buildTree fc).root = some r ∧
        (256 ≤ r.toNat ↔ 2 ≤ (presentSyms fc).length) ∧ (∀ x, presentSyms fc = [x] → r = leafId x)

/-- R64: where the counters' sum fits 32 bits, no addition of the merge loop wraps, every node's frequency is the sum
of the leaf frequencies below it, and the root's frequency is the sum of all counters. -/
def Obligations.FrequencyConservation : Prop :=
  ∀ fc, freqSum fc < 2 ^ 32 → 1 ≤ (presentSyms fc).length →
    (∀ id ∈ (buildTree fc).internalIds,
        (readNode (buildTree fc).nm id).freq.toNat
          = (readNode (buildTree fc).nm (readNode (buildTree fc).nm id).left).freq.toNat
            + (readNode (buildTree fc).nm (readNode (buildTree fc).nm id).right).freq.toNat ∧
        (readNode (buildTree fc).nm id).freq.toNat
          = ((leavesUnder (buildTree fc).nm 256 id).map (fun x => (freqOf fc x).toNat)).sum) ∧
      (builtRootFreq fc).toNat = freqSum fc

/-- R65: the finished tree is a strict binary tree: the two child links of every internal node, with the root, name
every present leaf and every internal node exactly once. -/
def Obligations.StrictBinaryTree : Prop :=
  ∀ fc r, (buildTree fc).root = some r →
    (r :: (buildTree fc).children).Nodup ∧
      (r :: (buildTree fc).children).Perm ((presentSyms fc).map leafId ++ (buildTree fc).internalIds) ∧
      (buildTree fc).internalIds.length + 1 = (presentSyms fc).length

/-- R66: the layout of the heap is not observable: from any arrangement of the working set at any turn, the loop makes
the same node memory and the same root. -/
def Obligations.HeapLayoutIsNotObservable : Prop :=
  ∀ fc n j w, w.Perm (mergeLoop n (mergeStart fc)).work →
    (mergeLoop j { mergeLoop n (mergeStart fc) with work := w }).nm = (mergeLoop j (mergeLoop n (mergeStart fc))).nm ∧
      (mergeLoop j { mergeLoop n (mergeStart fc) with work := w }).k = (mergeLoop j (mergeLoop n (mergeStart fc))).k ∧
      (mergeLoop j { mergeLoop n (mergeStart fc) with work := w }).work.Perm
        (mergeLoop j (mergeLoop n (mergeStart fc))).work

/-- R67: the table and ROOT_FREQ a BUILD commits depend on the counters alone. -/
def Obligations.BuildIsDeterministic : Prop :=
  ∀ s s' t t', s.fc = s'.fc → s.inflight = .build → s'.inflight = .build →
    engineStep s = .next t → engineStep s' = .next t' → t.ct = t'.ct ∧ t.rootFreq = t'.rootFreq

/-! ### The code table (spec 42) -/

/-- R69, R70: the code of a present symbol is the path from the root to its leaf, 0 for left and 1 for right; the one
symbol of a one-symbol table has code "0". -/
def Obligations.CodesArePathsToLeaves : Prop :=
  (∀ fc r x, 2 ≤ (presentSyms fc).length → (buildTree fc).root = some r → freqOf fc x ≠ 0#32 →
      follow (buildTree fc).nm r (entryOf (builtTable fc) x).bits = some (leafId x)) ∧
    ∀ fc x, presentSyms fc = [x] → (entryOf (builtTable fc) x).bits = [false]

/-- R72 and R17: every present symbol has a code, every absent symbol has none, and stored bits beyond a code's length
are 0. -/
def Obligations.TableCoverage : Prop :=
  ∀ fc x, (freqOf fc x ≠ 0#32 → 1 ≤ (entryOf (builtTable fc) x).len.toNat) ∧
    (freqOf fc x = 0#32 → (entryOf (builtTable fc) x).len = 0#8 ∧ (entryOf (builtTable fc) x).code = 0#255) ∧
    ∀ i, (entryOf (builtTable fc) x).len.toNat ≤ i → (entryOf (builtTable fc) x).code.getLsbD i = false

/-- R73: the bounds on the code lengths. -/
def Obligations.CodeLengthBounds : Prop :=
  ∀ fc x, freqOf fc x ≠ 0#32 →
    (2 ≤ (presentSyms fc).length →
        1 ≤ (entryOf (builtTable fc) x).len.toNat ∧
          (entryOf (builtTable fc) x).len.toNat ≤ (presentSyms fc).length - 1 ∧ (presentSyms fc).length - 1 ≤ 255) ∧
      ((presentSyms fc).length = 1 → (entryOf (builtTable fc) x).len.toNat = 1)

/-- R74: the table is prefix-free. -/
def Obligations.TableIsPrefixFree : Prop :=
  ∀ fc a b, freqOf fc a ≠ 0#32 → freqOf fc b ≠ 0#32 → a ≠ b →
    ¬ (entryOf (builtTable fc) a).bits <+: (entryOf (builtTable fc) b).bits

/-- R75: the Kraft sum is 1 for two or more present symbols and 1/2 for one. -/
def Obligations.KraftSum : Prop :=
  ∀ fc, 1 ≤ (presentSyms fc).length →
    ((presentSyms fc).map (fun x => ((1 : ℚ) / 2) ^ (entryOf (builtTable fc) x).len.toNat)).sum
      = if (presentSyms fc).length = 1 then 1 / 2 else 1

/-- R76: more frequent symbols have shorter or equal codes, where the counters' sum fits 32 bits (R22). -/
def Obligations.FrequentSymbolsHaveShorterCodes : Prop :=
  ∀ fc a b, freqSum fc < 2 ^ 32 → freqOf fc b ≠ 0#32 → (freqOf fc b).toNat < (freqOf fc a).toNat →
    (entryOf (builtTable fc) a).len.toNat ≤ (entryOf (builtTable fc) b).len.toNat

/-! ### Counting and encoding streams (spec 40, 43) -/

/-- R53: after one CNT for each byte of a stream, each counter is the number of its symbol's occurrences and TOTAL is
the stream's length; the order of the CNT commands does not matter. -/
def Obligations.CountsAreOccurrences : Prop :=
  ∀ (s : State) (xs ys : List Sym) (rest : List Event), s.busy = false → s.phase = .count → s.fc = clearedFreq →
    s.total = 0#32 → xs.length < 2 ^ 32 → ys.Perm xs →
    ∃ t, core.run xs.length { s with events := xs.map (fun x => hostWrite s.cfg 0x04 (encode (.cnt x))) ++ rest }
        = .next t ∧
      (∀ x, (freqOf t.fc x).toNat = xs.count x) ∧ t.total.toNat = xs.length ∧ t.events = rest ∧ t.phase = .count ∧
      core.run ys.length { s with events := ys.map (fun x => hostWrite s.cfg 0x04 (encode (.cnt x))) ++ rest }
        = .next t

/-- R86, R81: a pass starts empty at ESTART and at a BUILD's completion, and every step within it keeps: popped bits,
then OBUF, are the codes of the symbols encoded so far in order; SYMCNT is their number and BITCNT their bits. -/
def Obligations.EncodingPassOutput : Prop :=
  (∀ s : State, PassOk s.startPass [] []) ∧
    (∀ s t, StateInv s → s.inflight = .build → engineStep s = .next t → PassOk t [] []) ∧
    (∀ s t xs popped, StateInv s → s.tvalid = true → PassOk s xs popped → Machine.step s = .next t →
      (s.nextCommand = some (encode .estart) → s.busy = true) → s.nextCommand ≠ some (encode .clr) →
      s.nextIsReset = false → PassOk t (xs ++ s.encodedNext) (popped ++ s.poppedNext)) ∧
    ∀ s xs popped, PassOk s xs popped → s.bitcnt.toNat - popped.length = s.obuf.length

/-- R87: a command that raises an error leaves OBUF, SYMCNT and BITCNT; ESTART and CLR empty OBUF. -/
def Obligations.FailedPassKeepsItsOutput : Prop :=
  (∀ w s t, s.phase ≠ .error → issue w s = .next t → t.phase = .error →
      t.obuf = s.obuf ∧ t.symcnt = s.symcnt ∧ t.bitcnt = s.bitcnt) ∧
    (∀ s t, s.busy = false → s.phase = .error → s.tvalid = true → exec .estart s = .next t → t.obuf = []) ∧
    ∀ s t, exec .clr s = .next t → t.obuf = []

/-- R88: greedy prefix matching of the concatenated codes gives back the encoded stream, and at each point exactly one
code is a prefix of the rest of the bits. -/
def Obligations.RoundTrip : Prop :=
  ∀ fc (xs : List Sym), (∀ x ∈ xs, freqOf fc x ≠ 0#32) →
    greedyDecode (builtTable fc) (xs.flatMap (fun x => (entryOf (builtTable fc) x).bits)).length
        (xs.flatMap (fun x => (entryOf (builtTable fc) x).bits)) = xs ∧
      ∀ x rest, xs = x :: rest →
        ∀ y, (freqOf fc y ≠ 0#32 ∧
            (entryOf (builtTable fc) y).bits <+: xs.flatMap (fun z => (entryOf (builtTable fc) z).bits)) ↔ y = x
end

