-- ==== Sys2Proof/Laws/Operands.lean ====
section
/-! SUPPORT. The counters and the table as arrays indexed by a symbol; bit-strings in table entries; the fields of a
packed command word. -/

namespace Sys2Proof.Machine

/-! ### Read after write -/

@[simp] theorem freqOf_setFreq_self (fc : FreqTable) (x : Sym) (v : Word) : freqOf (setFreq fc x v) x = v := by
  simp [freqOf, setFreq]

theorem freqOf_setFreq_of_ne (fc : FreqTable) (x y : Sym) (v : Word) (h : y ≠ x) :
    freqOf (setFreq fc x v) y = freqOf fc y := by
  have hne : x.toNat ≠ y.toNat := fun e => h (BitVec.eq_of_toNat_eq e.symm)
  simp [freqOf, setFreq, hne]

@[simp] theorem entryOf_setEntry_self (ct : CodeTable) (x : Sym) (e : CtEntry) : entryOf (setEntry ct x e) x = e := by
  simp [entryOf, setEntry]

theorem entryOf_setEntry_of_ne (ct : CodeTable) (x y : Sym) (e : CtEntry) (h : y ≠ x) :
    entryOf (setEntry ct x e) y = entryOf ct y := by
  have hne : x.toNat ≠ y.toNat := fun e => h (BitVec.eq_of_toNat_eq e.symm)
  simp [entryOf, setEntry, hne]

@[simp] theorem freqOf_cleared (x : Sym) : freqOf clearedFreq x = 0#32 := by
  simp [freqOf, clearedFreq]

@[simp] theorem entryOf_cleared (x : Sym) : entryOf clearedTable x = CtEntry.empty := by
  simp [entryOf, clearedTable]

@[ext] theorem freqTable_ext (fc fc' : FreqTable) (h : ∀ x, freqOf fc x = freqOf fc' x) : fc = fc' := by
  apply Vector.ext
  intro i hi
  have := h (BitVec.ofNat 8 i)
  have hm : i % 256 = i := Nat.mod_eq_of_lt hi
  simpa [freqOf, hm] using this

@[ext] theorem codeTable_ext (ct ct' : CodeTable) (h : ∀ x, entryOf ct x = entryOf ct' x) : ct = ct' := by
  apply Vector.ext
  intro i hi
  have := h (BitVec.ofNat 8 i)
  have hm : i % 256 = i := Nat.mod_eq_of_lt hi
  simpa [entryOf, hm] using this

/-! ### The symbols and the present symbols -/

theorem mem_allSyms (x : Sym) : x ∈ allSyms := by
  simp only [allSyms, List.mem_map, List.mem_range]
  exact ⟨x.toNat, x.isLt, by simp⟩

theorem length_allSyms : allSyms.length = 256 := by simp [allSyms]

theorem nodup_allSyms : allSyms.Nodup := by
  refine List.Nodup.map_on ?_ List.nodup_range
  intro a ha b hb h
  rw [List.mem_range] at ha hb
  have := congrArg BitVec.toNat h
  simpa [Nat.mod_eq_of_lt ha, Nat.mod_eq_of_lt hb] using this

theorem toList_eq_map_allSyms (fc : FreqTable) : fc.toList = allSyms.map (freqOf fc) := by
  apply List.ext_getElem
  · simp [length_allSyms]
  · intro i h1 h2
    have hi : i < 256 := by simpa using h1
    have hm : i % 256 = i := Nat.mod_eq_of_lt hi
    simp [allSyms, freqOf, hm]

/-- The present symbols are the symbols with a nonzero counter, in numeric order (R54). -/
theorem presentSyms_eq_filter (fc : FreqTable) : presentSyms fc = allSyms.filter (fun x => freqOf fc x != 0#32) := by
  have key : ∀ l : List Sym, ((l.zip (l.map (freqOf fc))).filter (fun p => p.2 != 0#32)).map Prod.fst
      = l.filter (fun x => freqOf fc x != 0#32) := by
    intro l
    induction l with
    | nil => rfl
    | cons a l ih =>
      simp only [List.map_cons, List.zip_cons_cons, List.filter_cons]
      split <;> simp_all
  rw [presentSyms, toList_eq_map_allSyms, key]

@[simp] theorem mem_presentSyms (fc : FreqTable) (x : Sym) : x ∈ presentSyms fc ↔ freqOf fc x ≠ 0#32 := by
  simp [presentSyms_eq_filter, mem_allSyms]

theorem nodup_presentSyms (fc : FreqTable) : (presentSyms fc).Nodup := by
  rw [presentSyms_eq_filter]
  exact nodup_allSyms.filter _

theorem length_presentSyms_le (fc : FreqTable) : (presentSyms fc).length ≤ 256 := by
  rw [presentSyms_eq_filter, ← length_allSyms]
  exact List.length_filter_le _ _

theorem freqSum_eq_sum_allSyms (fc : FreqTable) :
    freqSum fc = (allSyms.map (fun x => (freqOf fc x).toNat)).sum := by
  rw [freqSum, toList_eq_map_allSyms, List.map_map]
  rfl

/-- Only the present symbols contribute to the sum of the counters. -/
theorem freqSum_eq_sum_present (fc : FreqTable) :
    freqSum fc = ((presentSyms fc).map (fun x => (freqOf fc x).toNat)).sum := by
  rw [freqSum_eq_sum_allSyms, presentSyms_eq_filter]
  induction allSyms with
  | nil => rfl
  | cons a l ih =>
    by_cases h : freqOf fc a = 0#32
    · simp [h, ih]
    · simp [h, ih]

theorem freqOf_le_freqSum (fc : FreqTable) (x : Sym) : (freqOf fc x).toNat ≤ freqSum fc := by
  rw [freqSum_eq_sum_allSyms]
  exact List.single_le_sum (by simp) _ (List.mem_map.mpr ⟨x, mem_allSyms x, rfl⟩)

/-- Replacing one counter's value moves the sum by the difference. -/
theorem freqSum_setFreq (fc : FreqTable) (x : Sym) (v : Word) :
    freqSum (setFreq fc x v) + (freqOf fc x).toNat = freqSum fc + v.toNat := by
  have key : ∀ l : List Sym, l.Nodup →
      ((l.map (fun y => (freqOf (setFreq fc x v) y).toNat)).sum + (if x ∈ l then (freqOf fc x).toNat else 0)
        = (l.map (fun y => (freqOf fc y).toNat)).sum + (if x ∈ l then v.toNat else 0)) := by
    intro l hl
    induction l with
    | nil => simp
    | cons a l ih =>
      obtain ⟨ha, hl⟩ := List.nodup_cons.mp hl
      have ih := ih hl
      by_cases h : a = x
      · subst h
        simp only [ha, if_false, List.map_cons, List.sum_cons, freqOf_setFreq_self, List.mem_cons, true_or,
          if_true] at ih ⊢
        omega
      · have h' : ¬ x = a := fun e => h e.symm
        simp only [List.map_cons, List.sum_cons, List.mem_cons, h', false_or, freqOf_setFreq_of_ne fc x a v h] at ih ⊢
        omega
  have := key allSyms nodup_allSyms
  simpa [freqSum_eq_sum_allSyms, mem_allSyms] using this

theorem freqSum_cleared : freqSum clearedFreq = 0 := by
  rw [freqSum_eq_sum_present]
  have : presentSyms clearedFreq = [] := by
    rw [List.eq_nil_iff_forall_not_mem]
    intro x hx
    simp at hx
  simp [this]

/-! ### Bit-strings in table entries -/

@[simp] theorem CtEntry.length_bits (e : CtEntry) : e.bits.length = e.len.toNat := by simp [CtEntry.bits]

@[simp] theorem CtEntry.ofBits_len (p : List Bool) (h : p.length ≤ 255) : (CtEntry.ofBits p).len.toNat = p.length := by
  simp [CtEntry.ofBits, Nat.mod_eq_of_lt (by omega : p.length < 256)]

/-- An entry written for a path of at most 255 bits reads back as that path (R17, R73). -/
@[simp] theorem CtEntry.ofBits_bits (p : List Bool) (h : p.length ≤ 255) : (CtEntry.ofBits p).bits = p := by
  apply List.ext_getElem
  · simp [h]
  · intro i h1 h2
    have hi : i < 255 := by omega
    simp [CtEntry.bits, CtEntry.ofBits, hi, h2, -BitVec.getLsbD_eq_getElem, List.getD_eq_getElem?_getD]

/-- Code bits beyond the length are 0 (R17). -/
theorem CtEntry.ofBits_unused (p : List Bool) (i : Nat) (h : p.length ≤ i) : (CtEntry.ofBits p).code.getLsbD i = false := by
  simp [CtEntry.ofBits, BitVec.getLsbD_setWidth, h]

end Sys2Proof.Machine

namespace Sys2Proof

/-! ### The fields of a packed command word -/

@[simp] theorem opField_packCommand (op : BitVec 8) (x : Sym) : opField (packCommand op x) = op := by
  ext i hi
  simp [opField, packCommand, hi, show 24 + i < 32 by omega, BitVec.getLsbD_of_ge x (24 + i) (by omega)]

@[simp] theorem rsvField_packCommand (op : BitVec 8) (x : Sym) : rsvField (packCommand op x) = 0#16 := by
  ext i hi
  simp [rsvField, packCommand, show 8 + i < 24 by omega]

@[simp] theorem symField_packCommand (op : BitVec 8) (x : Sym) : symField (packCommand op x) = x := by
  ext i hi
  simp [symField, packCommand, show i < 32 by omega, show i < 24 by omega,
    BitVec.getLsbD_eq_getElem hi]

end Sys2Proof
end

