-- ==== Sys2Proof/Laws/PerInstr.lean ====
section
/-! SUPPORT. Statements about each instruction as syntax, one lemma per constructor. -/

namespace Sys2Proof.Laws.LegalWord

open Sys2Proof Sys2Proof.Machine

/-- The encoding of an instruction is a legal word (R47), its RSV field is 0 (R44), and the instruction is well
formed. -/
def Statement (i : Instr) : Prop := legal (encode i) = true ∧ rsvField (encode i) = 0#16 ∧ i.wf = true

theorem nop : Statement .nop := by unfold Statement; decide

theorem clr : Statement .clr := by unfold Statement; decide

theorem cnt (x : Sym) : Statement (.cnt x) := by
  refine ⟨?_, rsvField_packCommand _ _, rfl⟩
  have hop : (encode (.cnt x)).extractLsb' 24 8 = 0x02#8 := opField_packCommand _ _
  have hrsv : (encode (.cnt x)).extractLsb' 8 16 = 0#16 := rsvField_packCommand _ _
  simp [legal, hop, hrsv]

theorem build : Statement .build := by unfold Statement; decide

theorem estart : Statement .estart := by unfold Statement; decide

theorem enc (x : Sym) : Statement (.enc x) := by
  refine ⟨?_, rsvField_packCommand _ _, rfl⟩
  have hop : (encode (.enc x)).extractLsb' 24 8 = 0x05#8 := opField_packCommand _ _
  have hrsv : (encode (.enc x)).extractLsb' 8 16 = 0#16 := rsvField_packCommand _ _
  simp [legal, hop, hrsv]

end Sys2Proof.Laws.LegalWord
end

