-- ==== Sys2Proof/Laws/State.lean ====
section
/-! SUPPORT. One lemma per state update and field: what the update leaves in that field. -/

namespace Sys2Proof.Machine

/-! ### recordErr -/

@[simp] theorem State.recordErr_cfg (e : ErrCode) (w : Word) (s : State) : (s.recordErr e w).cfg = s.cfg := rfl
@[simp] theorem State.recordErr_phase (e : ErrCode) (w : Word) (s : State) : (s.recordErr e w).phase = s.phase := rfl
@[simp] theorem State.recordErr_busy (e : ErrCode) (w : Word) (s : State) : (s.recordErr e w).busy = s.busy := rfl
@[simp] theorem State.recordErr_inflight (e : ErrCode) (w : Word) (s : State) : (s.recordErr e w).inflight = s.inflight := rfl
@[simp] theorem State.recordErr_ovrp (e : ErrCode) (w : Word) (s : State) : (s.recordErr e w).ovrp = s.ovrp := rfl
@[simp] theorem State.recordErr_tvalid (e : ErrCode) (w : Word) (s : State) : (s.recordErr e w).tvalid = s.tvalid := rfl
@[simp] theorem State.recordErr_fc (e : ErrCode) (w : Word) (s : State) : (s.recordErr e w).fc = s.fc := rfl
@[simp] theorem State.recordErr_total (e : ErrCode) (w : Word) (s : State) : (s.recordErr e w).total = s.total := rfl
@[simp] theorem State.recordErr_ct (e : ErrCode) (w : Word) (s : State) : (s.recordErr e w).ct = s.ct := rfl
@[simp] theorem State.recordErr_rootFreq (e : ErrCode) (w : Word) (s : State) : (s.recordErr e w).rootFreq = s.rootFreq := rfl
@[simp] theorem State.recordErr_symcnt (e : ErrCode) (w : Word) (s : State) : (s.recordErr e w).symcnt = s.symcnt := rfl
@[simp] theorem State.recordErr_bitcnt (e : ErrCode) (w : Word) (s : State) : (s.recordErr e w).bitcnt = s.bitcnt := rfl
@[simp] theorem State.recordErr_obuf (e : ErrCode) (w : Word) (s : State) : (s.recordErr e w).obuf = s.obuf := rfl
@[simp] theorem State.recordErr_errCode (e : ErrCode) (w : Word) (s : State) : (s.recordErr e w).errCode = e := rfl
@[simp] theorem State.recordErr_errSym (e : ErrCode) (w : Word) (s : State) : (s.recordErr e w).errSym = symField w := rfl
@[simp] theorem State.recordErr_errOp (e : ErrCode) (w : Word) (s : State) : (s.recordErr e w).errOp = opField w := rfl
@[simp] theorem State.recordErr_tabSel (e : ErrCode) (w : Word) (s : State) : (s.recordErr e w).tabSel = s.tabSel := rfl
@[simp] theorem State.recordErr_events (e : ErrCode) (w : Word) (s : State) : (s.recordErr e w).events = s.events := rfl
@[simp] theorem State.recordErr_readLog (e : ErrCode) (w : Word) (s : State) : (s.recordErr e w).readLog = s.readLog := rfl

/-! ### raise -/

@[simp] theorem State.raise_cfg (e : ErrCode) (w : Word) (s : State) : (s.raise e w).cfg = s.cfg := rfl
@[simp] theorem State.raise_phase (e : ErrCode) (w : Word) (s : State) : (s.raise e w).phase = .error := rfl
@[simp] theorem State.raise_busy (e : ErrCode) (w : Word) (s : State) : (s.raise e w).busy = s.busy := rfl
@[simp] theorem State.raise_inflight (e : ErrCode) (w : Word) (s : State) : (s.raise e w).inflight = s.inflight := rfl
@[simp] theorem State.raise_ovrp (e : ErrCode) (w : Word) (s : State) : (s.raise e w).ovrp = s.ovrp := rfl
@[simp] theorem State.raise_tvalid (e : ErrCode) (w : Word) (s : State) : (s.raise e w).tvalid = s.tvalid := rfl
@[simp] theorem State.raise_fc (e : ErrCode) (w : Word) (s : State) : (s.raise e w).fc = s.fc := rfl
@[simp] theorem State.raise_total (e : ErrCode) (w : Word) (s : State) : (s.raise e w).total = s.total := rfl
@[simp] theorem State.raise_ct (e : ErrCode) (w : Word) (s : State) : (s.raise e w).ct = s.ct := rfl
@[simp] theorem State.raise_rootFreq (e : ErrCode) (w : Word) (s : State) : (s.raise e w).rootFreq = s.rootFreq := rfl
@[simp] theorem State.raise_symcnt (e : ErrCode) (w : Word) (s : State) : (s.raise e w).symcnt = s.symcnt := rfl
@[simp] theorem State.raise_bitcnt (e : ErrCode) (w : Word) (s : State) : (s.raise e w).bitcnt = s.bitcnt := rfl
@[simp] theorem State.raise_obuf (e : ErrCode) (w : Word) (s : State) : (s.raise e w).obuf = s.obuf := rfl
@[simp] theorem State.raise_errCode (e : ErrCode) (w : Word) (s : State) : (s.raise e w).errCode = e := rfl
@[simp] theorem State.raise_errSym (e : ErrCode) (w : Word) (s : State) : (s.raise e w).errSym = symField w := rfl
@[simp] theorem State.raise_errOp (e : ErrCode) (w : Word) (s : State) : (s.raise e w).errOp = opField w := rfl
@[simp] theorem State.raise_tabSel (e : ErrCode) (w : Word) (s : State) : (s.raise e w).tabSel = s.tabSel := rfl
@[simp] theorem State.raise_events (e : ErrCode) (w : Word) (s : State) : (s.raise e w).events = s.events := rfl
@[simp] theorem State.raise_readLog (e : ErrCode) (w : Word) (s : State) : (s.raise e w).readLog = s.readLog := rfl

/-! ### startPass -/

@[simp] theorem State.startPass_cfg (s : State) : (s.startPass).cfg = s.cfg := rfl
@[simp] theorem State.startPass_phase (s : State) : (s.startPass).phase = .ready := rfl
@[simp] theorem State.startPass_busy (s : State) : (s.startPass).busy = s.busy := rfl
@[simp] theorem State.startPass_inflight (s : State) : (s.startPass).inflight = s.inflight := rfl
@[simp] theorem State.startPass_ovrp (s : State) : (s.startPass).ovrp = s.ovrp := rfl
@[simp] theorem State.startPass_tvalid (s : State) : (s.startPass).tvalid = s.tvalid := rfl
@[simp] theorem State.startPass_fc (s : State) : (s.startPass).fc = s.fc := rfl
@[simp] theorem State.startPass_total (s : State) : (s.startPass).total = s.total := rfl
@[simp] theorem State.startPass_ct (s : State) : (s.startPass).ct = s.ct := rfl
@[simp] theorem State.startPass_rootFreq (s : State) : (s.startPass).rootFreq = s.rootFreq := rfl
@[simp] theorem State.startPass_symcnt (s : State) : (s.startPass).symcnt = 0#32 := rfl
@[simp] theorem State.startPass_bitcnt (s : State) : (s.startPass).bitcnt = 0#64 := rfl
@[simp] theorem State.startPass_obuf (s : State) : (s.startPass).obuf = [] := rfl
@[simp] theorem State.startPass_errCode (s : State) : (s.startPass).errCode = .none := rfl
@[simp] theorem State.startPass_errSym (s : State) : (s.startPass).errSym = 0#8 := rfl
@[simp] theorem State.startPass_errOp (s : State) : (s.startPass).errOp = 0#8 := rfl
@[simp] theorem State.startPass_tabSel (s : State) : (s.startPass).tabSel = s.tabSel := rfl
@[simp] theorem State.startPass_events (s : State) : (s.startPass).events = s.events := rfl
@[simp] theorem State.startPass_readLog (s : State) : (s.startPass).readLog = s.readLog := rfl

/-! ### cleared -/

@[simp] theorem State.cleared_cfg (s : State) : (s.cleared).cfg = s.cfg := rfl
@[simp] theorem State.cleared_phase (s : State) : (s.cleared).phase = .count := rfl
@[simp] theorem State.cleared_busy (s : State) : (s.cleared).busy = false := rfl
@[simp] theorem State.cleared_inflight (s : State) : (s.cleared).inflight = .none := rfl
@[simp] theorem State.cleared_ovrp (s : State) : (s.cleared).ovrp = false := rfl
@[simp] theorem State.cleared_tvalid (s : State) : (s.cleared).tvalid = false := rfl
@[simp] theorem State.cleared_fc (s : State) : (s.cleared).fc = clearedFreq := rfl
@[simp] theorem State.cleared_total (s : State) : (s.cleared).total = 0#32 := rfl
@[simp] theorem State.cleared_ct (s : State) : (s.cleared).ct = clearedTable := rfl
@[simp] theorem State.cleared_rootFreq (s : State) : (s.cleared).rootFreq = 0#32 := rfl
@[simp] theorem State.cleared_symcnt (s : State) : (s.cleared).symcnt = 0#32 := rfl
@[simp] theorem State.cleared_bitcnt (s : State) : (s.cleared).bitcnt = 0#64 := rfl
@[simp] theorem State.cleared_obuf (s : State) : (s.cleared).obuf = [] := rfl
@[simp] theorem State.cleared_errCode (s : State) : (s.cleared).errCode = .none := rfl
@[simp] theorem State.cleared_errSym (s : State) : (s.cleared).errSym = 0#8 := rfl
@[simp] theorem State.cleared_errOp (s : State) : (s.cleared).errOp = 0#8 := rfl
@[simp] theorem State.cleared_tabSel (s : State) : (s.cleared).tabSel = s.tabSel := rfl
@[simp] theorem State.cleared_events (s : State) : (s.cleared).events = s.events := rfl
@[simp] theorem State.cleared_readLog (s : State) : (s.cleared).readLog = s.readLog := rfl

/-! ### beginLong -/

@[simp] theorem State.beginLong_cfg (c : Inflight) (s : State) : (s.beginLong c).cfg = s.cfg := rfl
@[simp] theorem State.beginLong_phase (c : Inflight) (s : State) : (s.beginLong c).phase = s.phase := rfl
@[simp] theorem State.beginLong_busy (c : Inflight) (s : State) : (s.beginLong c).busy = true := rfl
@[simp] theorem State.beginLong_inflight (c : Inflight) (s : State) : (s.beginLong c).inflight = c := rfl
@[simp] theorem State.beginLong_ovrp (c : Inflight) (s : State) : (s.beginLong c).ovrp = s.ovrp := rfl
@[simp] theorem State.beginLong_tvalid (c : Inflight) (s : State) : (s.beginLong c).tvalid = s.tvalid := rfl
@[simp] theorem State.beginLong_fc (c : Inflight) (s : State) : (s.beginLong c).fc = s.fc := rfl
@[simp] theorem State.beginLong_total (c : Inflight) (s : State) : (s.beginLong c).total = s.total := rfl
@[simp] theorem State.beginLong_ct (c : Inflight) (s : State) : (s.beginLong c).ct = s.ct := rfl
@[simp] theorem State.beginLong_rootFreq (c : Inflight) (s : State) : (s.beginLong c).rootFreq = s.rootFreq := rfl
@[simp] theorem State.beginLong_symcnt (c : Inflight) (s : State) : (s.beginLong c).symcnt = s.symcnt := rfl
@[simp] theorem State.beginLong_bitcnt (c : Inflight) (s : State) : (s.beginLong c).bitcnt = s.bitcnt := rfl
@[simp] theorem State.beginLong_obuf (c : Inflight) (s : State) : (s.beginLong c).obuf = s.obuf := rfl
@[simp] theorem State.beginLong_errCode (c : Inflight) (s : State) : (s.beginLong c).errCode = s.errCode := rfl
@[simp] theorem State.beginLong_errSym (c : Inflight) (s : State) : (s.beginLong c).errSym = s.errSym := rfl
@[simp] theorem State.beginLong_errOp (c : Inflight) (s : State) : (s.beginLong c).errOp = s.errOp := rfl
@[simp] theorem State.beginLong_tabSel (c : Inflight) (s : State) : (s.beginLong c).tabSel = s.tabSel := rfl
@[simp] theorem State.beginLong_events (c : Inflight) (s : State) : (s.beginLong c).events = s.events := rfl
@[simp] theorem State.beginLong_readLog (c : Inflight) (s : State) : (s.beginLong c).readLog = s.readLog := rfl

/-! ### pushBits -/

@[simp] theorem State.pushBits_cfg (p : List Bool) (s : State) : (s.pushBits p).cfg = s.cfg := rfl
@[simp] theorem State.pushBits_phase (p : List Bool) (s : State) : (s.pushBits p).phase = s.phase := rfl
@[simp] theorem State.pushBits_busy (p : List Bool) (s : State) : (s.pushBits p).busy = s.busy := rfl
@[simp] theorem State.pushBits_inflight (p : List Bool) (s : State) : (s.pushBits p).inflight = s.inflight := rfl
@[simp] theorem State.pushBits_ovrp (p : List Bool) (s : State) : (s.pushBits p).ovrp = s.ovrp := rfl
@[simp] theorem State.pushBits_tvalid (p : List Bool) (s : State) : (s.pushBits p).tvalid = s.tvalid := rfl
@[simp] theorem State.pushBits_fc (p : List Bool) (s : State) : (s.pushBits p).fc = s.fc := rfl
@[simp] theorem State.pushBits_total (p : List Bool) (s : State) : (s.pushBits p).total = s.total := rfl
@[simp] theorem State.pushBits_ct (p : List Bool) (s : State) : (s.pushBits p).ct = s.ct := rfl
@[simp] theorem State.pushBits_rootFreq (p : List Bool) (s : State) : (s.pushBits p).rootFreq = s.rootFreq := rfl
@[simp] theorem State.pushBits_symcnt (p : List Bool) (s : State) : (s.pushBits p).symcnt = s.symcnt := rfl
@[simp] theorem State.pushBits_bitcnt (p : List Bool) (s : State) : (s.pushBits p).bitcnt = s.bitcnt := rfl
@[simp] theorem State.pushBits_obuf (p : List Bool) (s : State) : (s.pushBits p).obuf = s.obuf ++ p := rfl
@[simp] theorem State.pushBits_errCode (p : List Bool) (s : State) : (s.pushBits p).errCode = s.errCode := rfl
@[simp] theorem State.pushBits_errSym (p : List Bool) (s : State) : (s.pushBits p).errSym = s.errSym := rfl
@[simp] theorem State.pushBits_errOp (p : List Bool) (s : State) : (s.pushBits p).errOp = s.errOp := rfl
@[simp] theorem State.pushBits_tabSel (p : List Bool) (s : State) : (s.pushBits p).tabSel = s.tabSel := rfl
@[simp] theorem State.pushBits_events (p : List Bool) (s : State) : (s.pushBits p).events = s.events := rfl
@[simp] theorem State.pushBits_readLog (p : List Bool) (s : State) : (s.pushBits p).readLog = s.readLog := rfl

/-! ### popBit -/

@[simp] theorem State.popBit_cfg (s : State) : (s.popBit).cfg = s.cfg := rfl
@[simp] theorem State.popBit_phase (s : State) : (s.popBit).phase = s.phase := rfl
@[simp] theorem State.popBit_busy (s : State) : (s.popBit).busy = s.busy := rfl
@[simp] theorem State.popBit_inflight (s : State) : (s.popBit).inflight = s.inflight := rfl
@[simp] theorem State.popBit_ovrp (s : State) : (s.popBit).ovrp = s.ovrp := rfl
@[simp] theorem State.popBit_tvalid (s : State) : (s.popBit).tvalid = s.tvalid := rfl
@[simp] theorem State.popBit_fc (s : State) : (s.popBit).fc = s.fc := rfl
@[simp] theorem State.popBit_total (s : State) : (s.popBit).total = s.total := rfl
@[simp] theorem State.popBit_ct (s : State) : (s.popBit).ct = s.ct := rfl
@[simp] theorem State.popBit_rootFreq (s : State) : (s.popBit).rootFreq = s.rootFreq := rfl
@[simp] theorem State.popBit_symcnt (s : State) : (s.popBit).symcnt = s.symcnt := rfl
@[simp] theorem State.popBit_bitcnt (s : State) : (s.popBit).bitcnt = s.bitcnt := rfl
@[simp] theorem State.popBit_obuf (s : State) : (s.popBit).obuf = s.obuf.tail := rfl
@[simp] theorem State.popBit_errCode (s : State) : (s.popBit).errCode = s.errCode := rfl
@[simp] theorem State.popBit_errSym (s : State) : (s.popBit).errSym = s.errSym := rfl
@[simp] theorem State.popBit_errOp (s : State) : (s.popBit).errOp = s.errOp := rfl
@[simp] theorem State.popBit_tabSel (s : State) : (s.popBit).tabSel = s.tabSel := rfl
@[simp] theorem State.popBit_events (s : State) : (s.popBit).events = s.events := rfl
@[simp] theorem State.popBit_readLog (s : State) : (s.popBit).readLog = s.readLog := rfl

/-! ### setTabSel -/

@[simp] theorem State.setTabSel_cfg (v : Word) (s : State) : (s.setTabSel v).cfg = s.cfg := rfl
@[simp] theorem State.setTabSel_phase (v : Word) (s : State) : (s.setTabSel v).phase = s.phase := rfl
@[simp] theorem State.setTabSel_busy (v : Word) (s : State) : (s.setTabSel v).busy = s.busy := rfl
@[simp] theorem State.setTabSel_inflight (v : Word) (s : State) : (s.setTabSel v).inflight = s.inflight := rfl
@[simp] theorem State.setTabSel_ovrp (v : Word) (s : State) : (s.setTabSel v).ovrp = s.ovrp := rfl
@[simp] theorem State.setTabSel_tvalid (v : Word) (s : State) : (s.setTabSel v).tvalid = s.tvalid := rfl
@[simp] theorem State.setTabSel_fc (v : Word) (s : State) : (s.setTabSel v).fc = s.fc := rfl
@[simp] theorem State.setTabSel_total (v : Word) (s : State) : (s.setTabSel v).total = s.total := rfl
@[simp] theorem State.setTabSel_ct (v : Word) (s : State) : (s.setTabSel v).ct = s.ct := rfl
@[simp] theorem State.setTabSel_rootFreq (v : Word) (s : State) : (s.setTabSel v).rootFreq = s.rootFreq := rfl
@[simp] theorem State.setTabSel_symcnt (v : Word) (s : State) : (s.setTabSel v).symcnt = s.symcnt := rfl
@[simp] theorem State.setTabSel_bitcnt (v : Word) (s : State) : (s.setTabSel v).bitcnt = s.bitcnt := rfl
@[simp] theorem State.setTabSel_obuf (v : Word) (s : State) : (s.setTabSel v).obuf = s.obuf := rfl
@[simp] theorem State.setTabSel_errCode (v : Word) (s : State) : (s.setTabSel v).errCode = s.errCode := rfl
@[simp] theorem State.setTabSel_errSym (v : Word) (s : State) : (s.setTabSel v).errSym = s.errSym := rfl
@[simp] theorem State.setTabSel_errOp (v : Word) (s : State) : (s.setTabSel v).errOp = s.errOp := rfl
@[simp] theorem State.setTabSel_tabSel (v : Word) (s : State) : (s.setTabSel v).tabSel = v.extractLsb' 0 8 := rfl
@[simp] theorem State.setTabSel_events (v : Word) (s : State) : (s.setTabSel v).events = s.events := rfl
@[simp] theorem State.setTabSel_readLog (v : Word) (s : State) : (s.setTabSel v).readLog = s.readLog := rfl

/-! ### logRead -/

@[simp] theorem State.logRead_cfg (off : Nat) (v : Word) (s : State) : (s.logRead off v).cfg = s.cfg := rfl
@[simp] theorem State.logRead_phase (off : Nat) (v : Word) (s : State) : (s.logRead off v).phase = s.phase := rfl
@[simp] theorem State.logRead_busy (off : Nat) (v : Word) (s : State) : (s.logRead off v).busy = s.busy := rfl
@[simp] theorem State.logRead_inflight (off : Nat) (v : Word) (s : State) : (s.logRead off v).inflight = s.inflight := rfl
@[simp] theorem State.logRead_ovrp (off : Nat) (v : Word) (s : State) : (s.logRead off v).ovrp = s.ovrp := rfl
@[simp] theorem State.logRead_tvalid (off : Nat) (v : Word) (s : State) : (s.logRead off v).tvalid = s.tvalid := rfl
@[simp] theorem State.logRead_fc (off : Nat) (v : Word) (s : State) : (s.logRead off v).fc = s.fc := rfl
@[simp] theorem State.logRead_total (off : Nat) (v : Word) (s : State) : (s.logRead off v).total = s.total := rfl
@[simp] theorem State.logRead_ct (off : Nat) (v : Word) (s : State) : (s.logRead off v).ct = s.ct := rfl
@[simp] theorem State.logRead_rootFreq (off : Nat) (v : Word) (s : State) : (s.logRead off v).rootFreq = s.rootFreq := rfl
@[simp] theorem State.logRead_symcnt (off : Nat) (v : Word) (s : State) : (s.logRead off v).symcnt = s.symcnt := rfl
@[simp] theorem State.logRead_bitcnt (off : Nat) (v : Word) (s : State) : (s.logRead off v).bitcnt = s.bitcnt := rfl
@[simp] theorem State.logRead_obuf (off : Nat) (v : Word) (s : State) : (s.logRead off v).obuf = s.obuf := rfl
@[simp] theorem State.logRead_errCode (off : Nat) (v : Word) (s : State) : (s.logRead off v).errCode = s.errCode := rfl
@[simp] theorem State.logRead_errSym (off : Nat) (v : Word) (s : State) : (s.logRead off v).errSym = s.errSym := rfl
@[simp] theorem State.logRead_errOp (off : Nat) (v : Word) (s : State) : (s.logRead off v).errOp = s.errOp := rfl
@[simp] theorem State.logRead_tabSel (off : Nat) (v : Word) (s : State) : (s.logRead off v).tabSel = s.tabSel := rfl
@[simp] theorem State.logRead_events (off : Nat) (v : Word) (s : State) : (s.logRead off v).events = s.events := rfl
@[simp] theorem State.logRead_readLog (off : Nat) (v : Word) (s : State) : (s.logRead off v).readLog = { offset := off, value := v } :: s.readLog := rfl

/-! ### applyReset -/

@[simp] theorem State.applyReset_cfg (s : State) : (s.applyReset).cfg = s.cfg := rfl
@[simp] theorem State.applyReset_phase (s : State) : (s.applyReset).phase = .count := rfl
@[simp] theorem State.applyReset_busy (s : State) : (s.applyReset).busy = false := rfl
@[simp] theorem State.applyReset_inflight (s : State) : (s.applyReset).inflight = .none := rfl
@[simp] theorem State.applyReset_ovrp (s : State) : (s.applyReset).ovrp = false := rfl
@[simp] theorem State.applyReset_tvalid (s : State) : (s.applyReset).tvalid = false := rfl
@[simp] theorem State.applyReset_fc (s : State) : (s.applyReset).fc = clearedFreq := rfl
@[simp] theorem State.applyReset_total (s : State) : (s.applyReset).total = 0#32 := rfl
@[simp] theorem State.applyReset_ct (s : State) : (s.applyReset).ct = clearedTable := rfl
@[simp] theorem State.applyReset_rootFreq (s : State) : (s.applyReset).rootFreq = 0#32 := rfl
@[simp] theorem State.applyReset_symcnt (s : State) : (s.applyReset).symcnt = 0#32 := rfl
@[simp] theorem State.applyReset_bitcnt (s : State) : (s.applyReset).bitcnt = 0#64 := rfl
@[simp] theorem State.applyReset_obuf (s : State) : (s.applyReset).obuf = [] := rfl
@[simp] theorem State.applyReset_errCode (s : State) : (s.applyReset).errCode = .none := rfl
@[simp] theorem State.applyReset_errSym (s : State) : (s.applyReset).errSym = 0#8 := rfl
@[simp] theorem State.applyReset_errOp (s : State) : (s.applyReset).errOp = 0#8 := rfl
@[simp] theorem State.applyReset_tabSel (s : State) : (s.applyReset).tabSel = 0#8 := rfl
@[simp] theorem State.applyReset_events (s : State) : (s.applyReset).events = s.events := rfl
@[simp] theorem State.applyReset_readLog (s : State) : (s.applyReset).readLog = s.readLog := rfl

/-! ### countSymbol -/

@[simp] theorem State.countSymbol_cfg (x : Sym) (s : State) : (s.countSymbol x).cfg = s.cfg := rfl
@[simp] theorem State.countSymbol_phase (x : Sym) (s : State) : (s.countSymbol x).phase = s.phase := rfl
@[simp] theorem State.countSymbol_busy (x : Sym) (s : State) : (s.countSymbol x).busy = s.busy := rfl
@[simp] theorem State.countSymbol_inflight (x : Sym) (s : State) : (s.countSymbol x).inflight = s.inflight := rfl
@[simp] theorem State.countSymbol_ovrp (x : Sym) (s : State) : (s.countSymbol x).ovrp = s.ovrp := rfl
@[simp] theorem State.countSymbol_tvalid (x : Sym) (s : State) : (s.countSymbol x).tvalid = s.tvalid := rfl
@[simp] theorem State.countSymbol_fc (x : Sym) (s : State) : (s.countSymbol x).fc = setFreq s.fc x (freqOf s.fc x + 1#32) := rfl
@[simp] theorem State.countSymbol_total (x : Sym) (s : State) : (s.countSymbol x).total = s.total + 1#32 := rfl
@[simp] theorem State.countSymbol_ct (x : Sym) (s : State) : (s.countSymbol x).ct = s.ct := rfl
@[simp] theorem State.countSymbol_rootFreq (x : Sym) (s : State) : (s.countSymbol x).rootFreq = s.rootFreq := rfl
@[simp] theorem State.countSymbol_symcnt (x : Sym) (s : State) : (s.countSymbol x).symcnt = s.symcnt := rfl
@[simp] theorem State.countSymbol_bitcnt (x : Sym) (s : State) : (s.countSymbol x).bitcnt = s.bitcnt := rfl
@[simp] theorem State.countSymbol_obuf (x : Sym) (s : State) : (s.countSymbol x).obuf = s.obuf := rfl
@[simp] theorem State.countSymbol_errCode (x : Sym) (s : State) : (s.countSymbol x).errCode = s.errCode := rfl
@[simp] theorem State.countSymbol_errSym (x : Sym) (s : State) : (s.countSymbol x).errSym = s.errSym := rfl
@[simp] theorem State.countSymbol_errOp (x : Sym) (s : State) : (s.countSymbol x).errOp = s.errOp := rfl
@[simp] theorem State.countSymbol_tabSel (x : Sym) (s : State) : (s.countSymbol x).tabSel = s.tabSel := rfl
@[simp] theorem State.countSymbol_events (x : Sym) (s : State) : (s.countSymbol x).events = s.events := rfl
@[simp] theorem State.countSymbol_readLog (x : Sym) (s : State) : (s.countSymbol x).readLog = s.readLog := rfl

/-! ### buildCommit -/

@[simp] theorem State.buildCommit_cfg (s : State) : (s.buildCommit).cfg = s.cfg := rfl
@[simp] theorem State.buildCommit_phase (s : State) : (s.buildCommit).phase = s.phase := rfl
@[simp] theorem State.buildCommit_busy (s : State) : (s.buildCommit).busy = s.busy := rfl
@[simp] theorem State.buildCommit_inflight (s : State) : (s.buildCommit).inflight = s.inflight := rfl
@[simp] theorem State.buildCommit_ovrp (s : State) : (s.buildCommit).ovrp = s.ovrp := rfl
@[simp] theorem State.buildCommit_tvalid (s : State) : (s.buildCommit).tvalid = true := rfl
@[simp] theorem State.buildCommit_fc (s : State) : (s.buildCommit).fc = s.fc := rfl
@[simp] theorem State.buildCommit_total (s : State) : (s.buildCommit).total = s.total := rfl
@[simp] theorem State.buildCommit_ct (s : State) : (s.buildCommit).ct = builtTable s.fc := rfl
@[simp] theorem State.buildCommit_rootFreq (s : State) : (s.buildCommit).rootFreq = builtRootFreq s.fc := rfl
@[simp] theorem State.buildCommit_symcnt (s : State) : (s.buildCommit).symcnt = s.symcnt := rfl
@[simp] theorem State.buildCommit_bitcnt (s : State) : (s.buildCommit).bitcnt = s.bitcnt := rfl
@[simp] theorem State.buildCommit_obuf (s : State) : (s.buildCommit).obuf = s.obuf := rfl
@[simp] theorem State.buildCommit_errCode (s : State) : (s.buildCommit).errCode = s.errCode := rfl
@[simp] theorem State.buildCommit_errSym (s : State) : (s.buildCommit).errSym = s.errSym := rfl
@[simp] theorem State.buildCommit_errOp (s : State) : (s.buildCommit).errOp = s.errOp := rfl
@[simp] theorem State.buildCommit_tabSel (s : State) : (s.buildCommit).tabSel = s.tabSel := rfl
@[simp] theorem State.buildCommit_events (s : State) : (s.buildCommit).events = s.events := rfl
@[simp] theorem State.buildCommit_readLog (s : State) : (s.buildCommit).readLog = s.readLog := rfl

/-! ### countEncoded -/

@[simp] theorem State.countEncoded_cfg (len : BitVec 8) (s : State) : (s.countEncoded len).cfg = s.cfg := rfl
@[simp] theorem State.countEncoded_phase (len : BitVec 8) (s : State) : (s.countEncoded len).phase = s.phase := rfl
@[simp] theorem State.countEncoded_busy (len : BitVec 8) (s : State) : (s.countEncoded len).busy = s.busy := rfl
@[simp] theorem State.countEncoded_inflight (len : BitVec 8) (s : State) : (s.countEncoded len).inflight = s.inflight := rfl
@[simp] theorem State.countEncoded_ovrp (len : BitVec 8) (s : State) : (s.countEncoded len).ovrp = s.ovrp := rfl
@[simp] theorem State.countEncoded_tvalid (len : BitVec 8) (s : State) : (s.countEncoded len).tvalid = s.tvalid := rfl
@[simp] theorem State.countEncoded_fc (len : BitVec 8) (s : State) : (s.countEncoded len).fc = s.fc := rfl
@[simp] theorem State.countEncoded_total (len : BitVec 8) (s : State) : (s.countEncoded len).total = s.total := rfl
@[simp] theorem State.countEncoded_ct (len : BitVec 8) (s : State) : (s.countEncoded len).ct = s.ct := rfl
@[simp] theorem State.countEncoded_rootFreq (len : BitVec 8) (s : State) : (s.countEncoded len).rootFreq = s.rootFreq := rfl
@[simp] theorem State.countEncoded_symcnt (len : BitVec 8) (s : State) : (s.countEncoded len).symcnt = s.symcnt + 1#32 := rfl
@[simp] theorem State.countEncoded_bitcnt (len : BitVec 8) (s : State) : (s.countEncoded len).bitcnt = s.bitcnt + len.setWidth 64 := rfl
@[simp] theorem State.countEncoded_obuf (len : BitVec 8) (s : State) : (s.countEncoded len).obuf = s.obuf := rfl
@[simp] theorem State.countEncoded_errCode (len : BitVec 8) (s : State) : (s.countEncoded len).errCode = s.errCode := rfl
@[simp] theorem State.countEncoded_errSym (len : BitVec 8) (s : State) : (s.countEncoded len).errSym = s.errSym := rfl
@[simp] theorem State.countEncoded_errOp (len : BitVec 8) (s : State) : (s.countEncoded len).errOp = s.errOp := rfl
@[simp] theorem State.countEncoded_tabSel (len : BitVec 8) (s : State) : (s.countEncoded len).tabSel = s.tabSel := rfl
@[simp] theorem State.countEncoded_events (len : BitVec 8) (s : State) : (s.countEncoded len).events = s.events := rfl
@[simp] theorem State.countEncoded_readLog (len : BitVec 8) (s : State) : (s.countEncoded len).readLog = s.readLog := rfl

/-! ### encCommit -/

@[simp] theorem State.encCommit_cfg (x : Sym) (s : State) : (s.encCommit x).cfg = s.cfg := rfl
@[simp] theorem State.encCommit_phase (x : Sym) (s : State) : (s.encCommit x).phase = s.phase := rfl
@[simp] theorem State.encCommit_busy (x : Sym) (s : State) : (s.encCommit x).busy = s.busy := rfl
@[simp] theorem State.encCommit_inflight (x : Sym) (s : State) : (s.encCommit x).inflight = s.inflight := rfl
@[simp] theorem State.encCommit_ovrp (x : Sym) (s : State) : (s.encCommit x).ovrp = s.ovrp := rfl
@[simp] theorem State.encCommit_tvalid (x : Sym) (s : State) : (s.encCommit x).tvalid = s.tvalid := rfl
@[simp] theorem State.encCommit_fc (x : Sym) (s : State) : (s.encCommit x).fc = s.fc := rfl
@[simp] theorem State.encCommit_total (x : Sym) (s : State) : (s.encCommit x).total = s.total := rfl
@[simp] theorem State.encCommit_ct (x : Sym) (s : State) : (s.encCommit x).ct = s.ct := rfl
@[simp] theorem State.encCommit_rootFreq (x : Sym) (s : State) : (s.encCommit x).rootFreq = s.rootFreq := rfl
@[simp] theorem State.encCommit_symcnt (x : Sym) (s : State) : (s.encCommit x).symcnt = s.symcnt + 1#32 := rfl
@[simp] theorem State.encCommit_bitcnt (x : Sym) (s : State) : (s.encCommit x).bitcnt = s.bitcnt + (entryOf s.ct x).len.setWidth 64 := rfl
@[simp] theorem State.encCommit_obuf (x : Sym) (s : State) : (s.encCommit x).obuf = s.obuf ++ (entryOf s.ct x).bits := rfl
@[simp] theorem State.encCommit_errCode (x : Sym) (s : State) : (s.encCommit x).errCode = s.errCode := rfl
@[simp] theorem State.encCommit_errSym (x : Sym) (s : State) : (s.encCommit x).errSym = s.errSym := rfl
@[simp] theorem State.encCommit_errOp (x : Sym) (s : State) : (s.encCommit x).errOp = s.errOp := rfl
@[simp] theorem State.encCommit_tabSel (x : Sym) (s : State) : (s.encCommit x).tabSel = s.tabSel := rfl
@[simp] theorem State.encCommit_events (x : Sym) (s : State) : (s.encCommit x).events = s.events := rfl
@[simp] theorem State.encCommit_readLog (x : Sym) (s : State) : (s.encCommit x).readLog = s.readLog := rfl

end Sys2Proof.Machine
end

