-- ==== Sys2Proof/Laws/Step.lean ====
section
/-! SUPPORT. What a step can do, said once: inversion lemmas of the gate, of `Issue`, of a bus write and of `step`, and
the spec lemma of each shared operation. -/

namespace Sys2Proof.Machine

/-! ### Shared operations -/

/-- What a discarded word does while busy: nothing after a first overrun, else the overrun is recorded (R49). -/
theorem State.overrun_cases (w : Word) (s : State) :
    (s.ovrp = true ∧ s.overrun w = s) ∨
      (s.ovrp = false ∧ s.overrun w = { s.recordErr .cmdOverrun w with ovrp := true }) := by
  cases h : s.ovrp
  · exact .inr ⟨rfl, by simp [State.overrun, h]⟩
  · exact .inl ⟨rfl, by simp [State.overrun, h]⟩

/-- What the gate can do: the overrun, the discard in ERROR, or the command's own rule (R49). -/
theorem State.gated_cases (w : Word) (body : State → State) (s : State) :
    (s.busy = true ∧ s.gated w body = s.overrun w) ∨
      (s.busy = false ∧ s.phase = .error ∧ s.gated w body = s) ∨
      (s.busy = false ∧ s.phase ≠ .error ∧ s.gated w body = body s) := by
  cases hb : s.busy
  · by_cases hp : s.phase = .error
    · exact .inr (.inl ⟨rfl, hp, by simp [State.gated, hb, hp]⟩)
    · exact .inr (.inr ⟨rfl, hp, by simp [State.gated, hb, hp]⟩)
  · exact .inl ⟨rfl, by simp [State.gated, hb]⟩

/-- The end of a long command, field by field (R40). -/
theorem State.endLong_eq (s : State) :
    s.endLong = { s with
      busy := false, inflight := .none, ovrp := false, phase := if s.ovrp then Phase.error else Phase.ready } := by
  cases h : s.ovrp <;> simp [State.endLong, h]

theorem State.commit_build (s : State) (h : s.inflight = .build) : s.commit = s.buildCommit := by
  simp [State.commit, h]

theorem State.commit_enc (s : State) (x : Sym) (h : s.inflight = .enc x) : s.commit = s.encCommit x := by
  simp [State.commit, h]

theorem State.commit_none (s : State) (h : s.inflight = .none) : s.commit = s := by
  simp [State.commit, h]

/-- BuildCommit and EncCommit do not read or write BUSY, PHASE, OVRP, ERR or TAB_SEL. -/
theorem State.commit_frame (s : State) :
    s.commit.ovrp = s.ovrp ∧ s.commit.phase = s.phase ∧ s.commit.busy = s.busy ∧ s.commit.errCode = s.errCode ∧
      s.commit.errSym = s.errSym ∧ s.commit.errOp = s.errOp ∧ s.commit.tabSel = s.tabSel ∧ s.commit.cfg = s.cfg ∧
      s.commit.fc = s.fc ∧ s.commit.total = s.total ∧ s.commit.events = s.events ∧ s.commit.readLog = s.readLog := by
  unfold State.commit
  split <;> simp

/-- `hold` holds of an ENC in flight whose code does not fit (R18). -/
theorem State.hold_iff (s : State) :
    s.hold = true ↔ s.busy = true ∧
      ∃ x, s.inflight = .enc x ∧ s.cfg.obufDepth - s.obuf.length < (entryOf s.ct x).len.toNat := by
  unfold State.hold
  split <;> simp_all

/-! ### Register offsets -/

theorem regAt_eq_cmd (off : Nat) : regAt off = .cmd ↔ off = 0x04 := by
  unfold regAt; split <;> simp_all

theorem regAt_eq_tabSel (off : Nat) : regAt off = .tabSel ↔ off = 0x18 := by
  unfold regAt; split <;> simp_all

theorem regAt_eq_outBit (off : Nat) : regAt off = .outBit ↔ off = 0x38 := by
  unfold regAt; split <;> simp_all

/-- A read of OUT_BIT pops (R34). -/
theorem busRead_outBit (s : State) : busRead 0x38 s = (s.logRead 0x38 (regValue .outBit s)).popBit := rfl

/-- A read of any other register only returns its value (R34). -/
theorem busRead_other (off : Nat) (s : State) (h : off ≠ 0x38) :
    busRead off s = s.logRead off (regValue (regAt off) s) := by
  have h' : regAt off ≠ .outBit := fun e => h ((regAt_eq_outBit off).mp e)
  unfold busRead
  split
  · contradiction
  · rfl

/-- A bus write: `Issue` at CMD, the selection at TAB_SEL, nothing elsewhere (R35). -/
theorem busWrite_cases (off : Nat) (v : Word) (s : State) :
    (off = 0x04 ∧ busWrite off v s = issue v s) ∨
      (off = 0x18 ∧ busWrite off v s = .next (s.setTabSel v)) ∨
      (off ≠ 0x04 ∧ off ≠ 0x18 ∧ busWrite off v s = .next s) := by
  by_cases h4 : off = 0x04
  · exact .inl ⟨h4, by subst h4; rfl⟩
  · by_cases h18 : off = 0x18
    · exact .inr (.inl ⟨h18, by subst h18; rfl⟩)
    · refine .inr (.inr ⟨h4, h18, ?_⟩)
      have hc : regAt off ≠ .cmd := fun e => h4 ((regAt_eq_cmd off).mp e)
      have ht : regAt off ≠ .tabSel := fun e => h18 ((regAt_eq_tabSel off).mp e)
      unfold busWrite
      split
      · contradiction
      · contradiction
      · rfl

/-! ### Commands -/

/-- Every command answers a next state: no command faults or is refused. -/
theorem exec_next (i : Instr) (s : State) : ∃ t, exec i s = .next t := by
  cases i <;> exact ⟨_, rfl⟩

/-- Every CMD write answers a next state. -/
theorem issue_next (w : Word) (s : State) : ∃ t, issue w s = .next t := by
  unfold issue
  split
  · exact exec_next _ s
  · exact ⟨_, rfl⟩

/-- Why a CMD write raises an error while not busy and not in ERROR (R92, R95). -/
inductive RaiseCause (w : Word) (s : State) : ErrCode → Prop where
  | illegal (d : DecodeError) (h : decode w = .error d) : RaiseCause w s .illegalCommand
  | cntSequence (x : Sym) (h : decode w = .ok (.cnt x)) (hp : s.phase = .ready) : RaiseCause w s .sequence
  | buildSequence (h : decode w = .ok .build) (hp : s.phase = .ready) : RaiseCause w s .sequence
  | estartSequence (h : decode w = .ok .estart) (hp : s.phase = .count) : RaiseCause w s .sequence
  | encSequence (x : Sym) (h : decode w = .ok (.enc x)) (hp : s.phase = .count) : RaiseCause w s .sequence
  | freqOverflow (x : Sym) (h : decode w = .ok (.cnt x)) (hp : s.phase = .count) (ht : s.total = 0xFFFFFFFF#32) :
      RaiseCause w s .freqOverflow
  | emptyInput (h : decode w = .ok .build) (hp : s.phase = .count) (hn : s.nsym = 0) : RaiseCause w s .emptyInput
  | unencodable (x : Sym) (h : decode w = .ok (.enc x)) (hp : s.phase = .ready)
      (hl : (entryOf s.ct x).len = 0#8) : RaiseCause w s .unencodableSymbol
  | statOverflow (x : Sym) (h : decode w = .ok (.enc x)) (hp : s.phase = .ready)
      (hl : (entryOf s.ct x).len ≠ 0#8) (hs : s.symcnt = 0xFFFFFFFF#32) : RaiseCause w s .statOverflow

/-- The codes 1 to 6 only (R94). -/
theorem RaiseCause.ne {w : Word} {s : State} {e : ErrCode} (h : RaiseCause w s e) : e ≠ .none ∧ e ≠ .cmdOverrun := by
  cases h <;> decide

/-- Every effect a CMD write can have, with the condition under which it has it (R49, R52, R57, R80, R82, R93). -/
inductive IssueEffect (w : Word) (s : State) : State → Prop where
  /-- NOP, a word discarded in ERROR, or a later overrun. -/
  | nothing : IssueEffect w s s
  | clear (h : decode w = .ok .clr) : IssueEffect w s s.cleared
  | overrun (hb : s.busy = true) (ho : s.ovrp = false) :
      IssueEffect w s { s.recordErr .cmdOverrun w with ovrp := true }
  | raise (e : ErrCode) (hb : s.busy = false) (hp : s.phase ≠ .error)
      (hc : RaiseCause w s e) : IssueEffect w s (s.raise e w)
  | count (x : Sym) (h : decode w = .ok (.cnt x)) (hb : s.busy = false) (hp : s.phase = .count)
      (ht : s.total ≠ 0xFFFFFFFF#32) : IssueEffect w s (s.countSymbol x)
  | build (h : decode w = .ok .build) (hb : s.busy = false) (hp : s.phase = .count) (hn : s.nsym ≠ 0) :
      IssueEffect w s (s.beginLong .build)
  | startPass (h : decode w = .ok .estart) (hb : s.busy = false)
      (hp : s.phase = .ready ∨ (s.phase = .error ∧ s.tvalid = true)) : IssueEffect w s s.startPass
  | enc (x : Sym) (h : decode w = .ok (.enc x)) (hb : s.busy = false) (hp : s.phase = .ready)
      (hl : (entryOf s.ct x).len ≠ 0#8) (hc : s.symcnt ≠ 0xFFFFFFFF#32) : IssueEffect w s (s.beginLong (.enc x))

theorem IssueEffect.of_overrun {w w' : Word} {s : State} (hb : s.busy = true) (hw : w' = w) :
    IssueEffect w s (s.overrun w') := by
  subst hw
  rcases s.overrun_cases w' with ⟨-, h⟩ | ⟨ho, h⟩
  · rw [h]; exact .nothing
  · rw [h]; exact .overrun hb ho

theorem IssueEffect.of_gated {w w' : Word} {s : State} {body : State → State} (hw : w' = w)
    (h : s.busy = false → s.phase ≠ .error → IssueEffect w s (body s)) : IssueEffect w s (s.gated w' body) := by
  rcases s.gated_cases w' body with ⟨hb, e⟩ | ⟨-, -, e⟩ | ⟨hb, hp, e⟩ <;> rw [e]
  · exact .of_overrun hb hw
  · exact .nothing
  · exact h hb hp

/-- What the decoder accepts: the word is the encoding of what it answers, so ERR records the issued word (R92). -/
theorem eq_encode_of_decode {w : Word} {i : Instr} (h : decode w = .ok i) : w = encode i := by
  have pack : ∀ op : BitVec 8, opField w = op → rsvField w = 0#16 → w = packCommand op (symField w) := by
    intro op ho hr
    subst ho
    apply BitVec.eq_of_getLsbD_eq
    intro j hj
    simp only [packCommand, BitVec.getLsbD_or, BitVec.getLsbD_shiftLeft, BitVec.getLsbD_setWidth, opField, symField,
      BitVec.getLsbD_extractLsb', hj]
    by_cases h8 : j < 8
    · simp [h8, show j < 24 by omega]
    · by_cases h24 : j < 24
      · have := congrArg (fun v => v.getLsbD (j - 8)) hr
        simp only [rsvField, BitVec.getLsbD_extractLsb'] at this
        simpa [h8, h24, show j - 8 < 16 by omega, show 8 + (j - 8) = j by omega] using this
      · simp [h8, h24, show j - 24 < 8 by omega, show 24 + (j - 24) = j by omega, show j - 24 < 32 by omega]
  have noOp : ∀ (op : BitVec 8) (i' : Instr), opField w = op → encode i' = packCommand op 0#8 →
      decodeNoOperand w i' = .ok i → w = encode i := by
    intro op i' ho he hd
    unfold decodeNoOperand at hd
    split at hd
    · cases hd
    · rename_i hr
      split at hd
      · cases hd
      · rename_i hs
        cases hd
        rw [he, pack op ho (by simpa using hr), not_not.mp hs]
  have withSym : ∀ (op : BitVec 8) (f : Sym → Instr), opField w = op → (∀ x, encode (f x) = packCommand op x) →
      decodeWithSymbol w f = .ok i → w = encode i := by
    intro op f ho he hd
    unfold decodeWithSymbol at hd
    split at hd
    · cases hd
    · rename_i hr
      cases hd
      rw [he, ← pack op ho (by simpa using hr)]
  unfold decode at h
  have op : ∀ n : Nat, (opField w).toNat = n → opField w = BitVec.ofNat 8 n := by
    intro n hn
    subst hn
    simp
  split at h
  · exact noOp 0x00#8 _ (op _ (by assumption)) rfl h
  · exact noOp 0x01#8 _ (op _ (by assumption)) rfl h
  · exact withSym 0x02#8 _ (op _ (by assumption)) (fun _ => rfl) h
  · exact noOp 0x03#8 _ (op _ (by assumption)) rfl h
  · exact noOp 0x04#8 _ (op _ (by assumption)) rfl h
  · exact withSym 0x05#8 _ (op _ (by assumption)) (fun _ => rfl) h
  · cases h

/-- The effects of a CMD write, said once; every rule about what a command changes is a case analysis of this. -/
theorem issue_effect {w : Word} {s t : State} (h : issue w s = .next t) : IssueEffect w s t := by
  have ready_of : s.phase ≠ .error → s.phase ≠ .count → s.phase = .ready := by
    cases s.phase <;> simp
  have count_of : s.phase ≠ .error → s.phase ≠ .ready → s.phase = .count := by
    cases s.phase <;> simp
  unfold issue at h
  split at h
  · rename_i i hd
    have hw := (eq_encode_of_decode hd).symm
    cases i with
    | nop => cases h; exact .nothing
    | clr => cases h; exact .clear hd
    | cnt x =>
      cases h
      refine .of_gated hw fun hb hp => ?_
      unfold State.cntBody
      rw [hw]
      split
      · rename_i hc
        exact .raise _ hb hp (.cntSequence x hd (ready_of hp hc))
      · rename_i hc
        have hc := not_not.mp hc
        split
        · rename_i ht
          exact .raise _ hb hp (.freqOverflow x hd hc ht)
        · rename_i ht
          exact .count x hd hb hc ht
    | build =>
      cases h
      refine .of_gated hw fun hb hp => ?_
      unfold State.buildBody
      rw [hw]
      split
      · rename_i hc
        exact .raise _ hb hp (.buildSequence hd (ready_of hp hc))
      · rename_i hc
        have hc := not_not.mp hc
        split
        · rename_i hn
          exact .raise _ hb hp (.emptyInput hd hc hn)
        · rename_i hn
          exact .build hd hb hc hn
    | estart =>
      cases h
      split
      · rename_i hb
        exact .of_overrun hb hw
      · rename_i hb
        have hb : s.busy = false := by simpa using hb
        split
        · rename_i hp
          split
          · rename_i ht
            exact .startPass hd hb (.inr ⟨hp, ht⟩)
          · exact .nothing
        · rename_i hp
          unfold State.estartBody
          rw [hw]
          split
          · rename_i hc
            exact .raise _ hb hp (.estartSequence hd hc)
          · rename_i hc
            exact .startPass hd hb (.inl (ready_of hp hc))
    | enc x =>
      cases h
      refine .of_gated hw fun hb hp => ?_
      unfold State.encBody
      rw [hw]
      split
      · rename_i hr
        exact .raise _ hb hp (.encSequence x hd (count_of hp hr))
      · rename_i hr
        have hr := not_not.mp hr
        split
        · rename_i hl
          exact .raise _ hb hp (.unencodable x hd hr hl)
        · rename_i hl
          split
          · rename_i hs
            exact .raise _ hb hp (.statOverflow x hd hr hl hs)
          · rename_i hs
            exact .enc x hd hb hr hl hs
  · rename_i d hd
    cases h
    exact .of_gated rfl fun hb hp => .raise _ hb hp (.illegal d hd)

/-! ### The step -/

/-- The state once the pending event is taken off. -/
def State.dropEvent (s : State) : State := { s with events := s.events.tail }

/-- Every step that answers a next state, by the agent that moved (R12, R40, R106). -/
inductive StepEffect (s : State) : State → Prop where
  | engine (hn : s.nextIsEngine = true) (he : s.engineEnabled = true) : StepEffect s s.dropEvent.complete
  | reset (hn : s.nextIsReset = true) : StepEffect s s.dropEvent.applyReset
  | read (off : Nat) (hn : s.nextRead = some off) : StepEffect s (busRead off s.dropEvent)
  | write (off : Nat) (v : Word) (t : State) (hn : s.nextWrite = some (off, v))
      (h : busWrite off v s.dropEvent = .next t) : StepEffect s t

/-- The next step is of one kind only: the ENGINE's, a reset, a read or a write. -/
theorem State.nextStep_exclusive (s : State) :
    (s.nextIsEngine = true → s.nextRead = none ∧ s.nextWrite = none ∧ s.nextIsReset = false) ∧
      (s.nextIsReset = true → s.nextRead = none ∧ s.nextWrite = none ∧ s.nextIsEngine = false) ∧
      (∀ off, s.nextRead = some off → s.nextWrite = none ∧ s.nextIsEngine = false ∧ s.nextIsReset = false) ∧
      (∀ p, s.nextWrite = some p → s.nextRead = none ∧ s.nextIsEngine = false ∧ s.nextIsReset = false) := by
  unfold State.nextIsEngine State.nextIsReset State.nextRead State.nextWrite
  generalize s.events = es
  match es with
  | [] => simp
  | .engine :: _ => simp
  | .reset :: _ => simp
  | .host a :: _ =>
    simp only
    split <;> simp_all

/-- The inversion of `step`. -/
theorem step_effect {s t : State} (h : step s = .next t) : StepEffect s t := by
  unfold step at h
  split at h
  · rename_i he
    unfold idleStep at h
    split at h
    · rename_i hen
      cases h
      have hd : s.dropEvent = s := by
        unfold State.dropEvent
        rw [he]
        cases s
        simp_all
      have := StepEffect.engine (s := s) (by simp [State.nextIsEngine, he]) hen
      rwa [hd] at this
    · cases h
  · rename_i e rest he
    have hd : { s with events := rest } = s.dropEvent := by
      unfold State.dropEvent
      rw [he, List.tail_cons]
    rw [hd] at h
    cases e with
    | engine =>
      simp only [eventStep, engineStep] at h
      split at h
      · rename_i hen
        cases h
        exact .engine (by simp [State.nextIsEngine, he]) hen
      · cases h
    | reset =>
      cases h
      exact .reset (by simp [State.nextIsReset, he])
    | host a =>
      simp only [eventStep, hostStep] at h
      split at h
      · cases h
      · rename_i off hoff
        have hoff' : windowOffset s.cfg a = .ok off := hoff
        split at h
        · rename_i hop
          cases h
          exact .read off (by simp [State.nextRead, he, hoff', hop])
        · rename_i v hop
          exact .write off v t (by simp [State.nextWrite, he, hoff', hop]) h

/-! ### Runs -/

/-- One step of a run, of any machine. -/
theorem run_succ (M : Host.Core) (k : Nat) (s : M.State) :
    M.run (k + 1) s =
      (match M.step s with
        | .next t => M.run k t
        | .fault r => .fault r
        | .refused r => .refused r) := rfl

/-- A run goes on where a step answers next. -/
theorem core_run_next (k : Nat) {s t : State} (h : step s = .next t) : core.run (k + 1) s = core.run k t := by
  have h' := run_succ core k s
  rw [show core.step s = .next t from h] at h'
  exact h'

/-- A run that ends in a next state went on from its first step. -/
theorem core_run_succ_next {k : Nat} {s t : State} (h : core.run (k + 1) s = .next t) :
    ∃ s', step s = .next s' ∧ core.run k s' = .next t := by
  cases hs : step s with
  | next s' => exact ⟨s', rfl, (core_run_next k hs).symm.trans h⟩
  | fault r =>
    have h' := run_succ core k s
    rw [show core.step s = .fault r from hs, h] at h'
    cases h'
  | refused r =>
    have h' := run_succ core k s
    rw [show core.step s = .refused r from hs, h] at h'
    cases h'

end Sys2Proof.Machine
end

