-- ==== Sys2Proof/Laws/Tree.lean ====
section
/-! SUPPORT. The node memory read as a tree: what the merge loop keeps at every turn, the finished tree, and the table
the traversal writes from it. Claims about codes can be proved on `CodeTree` and carried over by `builtTable_entry`. -/

namespace Sys2Proof.Machine

/-! ### Node memory -/

@[simp] theorem toNat_leafId (x : Sym) : (leafId x).toNat = x.toNat := by
  have := x.isLt
  simp only [leafId, BitVec.toNat_setWidth]
  omega

theorem toNat_internalId (k : Nat) (h : k < 256) : (internalId k).toNat = 256 + k := by
  simp only [internalId, BitVec.toNat_ofNat]
  omega

theorem leafId_injective {x y : Sym} (h : leafId x = leafId y) : x = y := by
  have := congrArg BitVec.toNat h
  exact BitVec.eq_of_toNat_eq (by simpa using this)

theorem readNode_writeNode_self (nm : NodeMem) (id : NodeId) (n : Node) (h : id.toNat < 511) :
    readNode (writeNode nm id n) id = n := by
  simp [readNode, writeNode, h]

theorem readNode_writeNode_of_ne (nm : NodeMem) (id j : NodeId) (n : Node) (h : j ≠ id) :
    readNode (writeNode nm id n) j = readNode nm j := by
  have hne : id.toNat ≠ j.toNat := fun e => h (BitVec.eq_of_toNat_eq e.symm)
  unfold readNode writeNode
  split
  · split
    · simp [hne]
    · rfl
  · rfl

/-- The leaves hold the counters (R61). -/
theorem readNode_loadLeaves (fc : FreqTable) (x : Sym) : (readNode (loadLeaves fc) (leafId x)).freq = freqOf fc x := by
  have hx := x.isLt
  have h : (leafId x).toNat < 511 := by simp; omega
  rw [readNode, dif_pos h]
  simp only [toNat_leafId, loadLeaves, Vector.getElem_mk, List.getElem_toArray]
  rw [List.getElem_append_left (by simp; omega)]
  simp [freqOf]

/-! ### Extraction -/

theorem argminKey_mem (nm : NodeMem) (a : NodeId) (rest : List NodeId) : argminKey nm a rest ∈ a :: rest := by
  induction rest generalizing a with
  | nil => simp [argminKey]
  | cons b rest ih =>
    have := ih (if nodeKey nm b < nodeKey nm a then b else a)
    rw [argminKey]
    split at this <;> rename_i hlt <;> simp only [hlt, if_true, if_false] <;> simp only [List.mem_cons] at this ⊢ <;>
      tauto

theorem argminKey_le (nm : NodeMem) (a : NodeId) (rest : List NodeId) :
    ∀ b ∈ a :: rest, nodeKey nm (argminKey nm a rest) ≤ nodeKey nm b := by
  induction rest generalizing a with
  | nil => simp [argminKey]
  | cons c rest ih =>
    intro b hb
    rw [argminKey]
    have h0 := ih (if nodeKey nm c < nodeKey nm a then c else a) _ (List.mem_cons_self ..)
    have hr := ih (if nodeKey nm c < nodeKey nm a then c else a)
    rcases List.mem_cons.mp hb with rfl | hb
    · split at h0 <;> rename_i hlt <;> simp only [hlt, if_true, if_false] <;> omega
    · rcases List.mem_cons.mp hb with rfl | hb
      · split at h0 <;> rename_i hlt <;> simp only [hlt, if_true, if_false] <;> omega
      · exact hr b (List.mem_cons_of_mem _ hb)

/-- What an extraction can do: it takes a node of least key out of W and leaves the others (R11, R61). -/
theorem extractMin_spec {nm : NodeMem} {work rest : List NodeId} {a : NodeId}
    (h : extractMin nm work = some (a, rest)) :
    (a :: rest).Perm work ∧ ∀ b ∈ work, nodeKey nm a ≤ nodeKey nm b := by
  cases work with
  | nil => cases h
  | cons x l =>
    simp only [extractMin, Option.some.injEq, Prod.mk.injEq] at h
    obtain ⟨rfl, rfl⟩ := h
    exact ⟨(List.perm_cons_erase (argminKey_mem nm x l)).symm, argminKey_le nm x l⟩

theorem extractMin_eq_none {nm : NodeMem} {work : List NodeId} : extractMin nm work = none ↔ work = [] := by
  cases work <;> simp [extractMin]

/-- What one turn of the merge loop can do: it merges a node of least key and a node of least key among the rest. -/
theorem mergeOnce_spec {m m' : MergeState} (h : mergeOnce m = some m') :
    ∃ a b rest, (a :: b :: rest).Perm m.work ∧ (∀ c ∈ m.work, nodeKey m.nm a ≤ nodeKey m.nm c) ∧
      (∀ c ∈ b :: rest, nodeKey m.nm b ≤ nodeKey m.nm c) ∧ m' = mergeNodes m a b rest := by
  unfold mergeOnce at h
  split at h
  · cases h
  · rename_i a w1 h1
    split at h
    · cases h
    · rename_i b w2 h2
      cases h
      obtain ⟨p1, l1⟩ := extractMin_spec h1
      obtain ⟨p2, l2⟩ := extractMin_spec h2
      exact ⟨a, b, w2, (p2.cons a).trans p1, l1, fun c hc => l2 c (p2.subset hc), rfl⟩

/-- The loop stops exactly when at most one node is left (R61). -/
theorem mergeOnce_eq_none {m : MergeState} : mergeOnce m = none ↔ m.work.length ≤ 1 := by
  unfold mergeOnce
  split
  · rename_i h
    simp [extractMin_eq_none.mp h]
  · rename_i a w1 h1
    have hp := (extractMin_spec h1).1.length_eq
    split
    · rename_i h2
      have := extractMin_eq_none.mp h2
      subst this
      simpa using hp.symm.le
    · rename_i b w2 h2
      have hp2 := (extractMin_spec h2).1.length_eq
      simp only [List.length_cons] at hp hp2
      simp
      omega

/-! ### Trees -/

/-- A finished code tree: leaves are symbols, internal nodes have two children (R65). -/
inductive CodeTree where
  | leaf (x : Sym)
  | node (l r : CodeTree)

/-- The symbols at the leaves, left to right. -/
def CodeTree.leaves : CodeTree → List Sym
  | .leaf x => [x]
  | .node l r => l.leaves ++ r.leaves

/-- The number of edges on the longest path down. -/
def CodeTree.depth : CodeTree → Nat
  | .leaf _ => 0
  | .node l r => max l.depth r.depth + 1

/-- Each leaf with its path, after the path p to this node: left 0, right 1 (R69). -/
def CodeTree.codes (p : List Bool) : CodeTree → List (Sym × List Bool)
  | .leaf x => [(x, p)]
  | .node l r => l.codes (p ++ [false]) ++ r.codes (p ++ [true])

/-- The sum of the counters of the leaves. -/
def CodeTree.weight (fc : FreqTable) (t : CodeTree) : Nat := (t.leaves.map (fun x => (freqOf fc x).toNat)).sum

/-- The node `id` of the node memory is the root of the tree t. -/
inductive Represents (nm : NodeMem) : NodeId → CodeTree → Prop where
  | leaf (x : Sym) : Represents nm (leafId x) (.leaf x)
  | node (id : NodeId) (l r : CodeTree) (h : 256 ≤ id.toNat) (hl : Represents nm (readNode nm id).left l)
      (hr : Represents nm (readNode nm id).right r) : Represents nm id (.node l r)

theorem CodeTree.leaves_ne_nil (t : CodeTree) : t.leaves ≠ [] := by
  induction t <;> simp_all [CodeTree.leaves]

/-- A strict binary tree with n leaves has depth at most n − 1 (R73). -/
theorem CodeTree.depth_lt (t : CodeTree) : t.depth < t.leaves.length := by
  induction t with
  | leaf x => simp [CodeTree.depth, CodeTree.leaves]
  | node l r hl hr =>
    have := List.length_pos_iff.mpr l.leaves_ne_nil
    have := List.length_pos_iff.mpr r.leaves_ne_nil
    simp only [CodeTree.depth, CodeTree.leaves, List.length_append]
    omega

/-- The leaves of the paths are the leaves. -/
theorem CodeTree.codes_fst (t : CodeTree) (p : List Bool) : (t.codes p).map Prod.fst = t.leaves := by
  induction t generalizing p with
  | leaf x => rfl
  | node l r hl hr => simp [CodeTree.codes, CodeTree.leaves, hl, hr]

/-- Every path extends the path to the node by at most the depth. -/
theorem CodeTree.codes_prefix (t : CodeTree) (p : List Bool) :
    ∀ c ∈ t.codes p, p <+: c.2 ∧ c.2.length ≤ p.length + t.depth := by
  induction t generalizing p with
  | leaf x => simp [CodeTree.codes, CodeTree.depth]
  | node l r hl hr =>
    intro c hc
    simp only [CodeTree.codes, List.mem_append] at hc
    simp only [CodeTree.depth]
    rcases hc with hc | hc
    · obtain ⟨h1, h2⟩ := hl _ c hc
      simp only [List.length_append, List.length_singleton] at h2
      exact ⟨(List.prefix_append p [false]).trans h1, by omega⟩
    · obtain ⟨h1, h2⟩ := hr _ c hc
      simp only [List.length_append, List.length_singleton] at h2
      exact ⟨(List.prefix_append p [true]).trans h1, by omega⟩

/-- The root of a tree is a leaf id exactly when the tree is a leaf (R62). -/
theorem Represents.leaf_iff {nm : NodeMem} {id : NodeId} {t : CodeTree} (h : Represents nm id t) :
    id.toNat < 256 ↔ ∃ x, t = .leaf x ∧ id = leafId x := by
  cases h with
  | leaf x => exact ⟨fun _ => ⟨x, rfl, rfl⟩, fun _ => by have := x.isLt; simp; omega⟩
  | node _ l r h _ _ => exact ⟨fun h' => by omega, fun ⟨x, e, _⟩ => by cases e⟩

/-- The traversal writes each leaf's path (R69, R71). -/
theorem Represents.walk_eq {nm : NodeMem} {id : NodeId} {t : CodeTree} (h : Represents nm id t) (fuel : Nat)
    (hf : t.depth < fuel) (p : List Bool) (ct : CodeTable) :
    walk nm fuel id p ct = (t.codes p).foldl (fun ct c => setEntry ct c.1 (CtEntry.ofBits c.2)) ct := by
  induction h generalizing fuel p ct with
  | leaf x =>
    obtain ⟨n, rfl⟩ : ∃ n, fuel = n + 1 := ⟨fuel - 1, by omega⟩
    have hx := x.isLt
    have hid : (leafId x).setWidth 8 = x := by
      apply BitVec.eq_of_toNat_eq
      simp only [BitVec.toNat_setWidth, toNat_leafId]
      omega
    simp only [walk, toNat_leafId, hid, CodeTree.codes, List.foldl_cons, List.foldl_nil]
    rw [if_pos (by omega)]
  | node id l r h _ _ ihl ihr =>
    obtain ⟨n, rfl⟩ : ∃ n, fuel = n + 1 := ⟨fuel - 1, by omega⟩
    simp only [CodeTree.depth] at hf
    simp only [walk, CodeTree.codes, List.foldl_append]
    rw [if_neg (by omega), ihl n (by omega), ihr n (by omega)]

/-- The leaves below a node are the tree's leaves. -/
theorem Represents.leavesUnder_eq {nm : NodeMem} {id : NodeId} {t : CodeTree} (h : Represents nm id t) (fuel : Nat)
    (hf : t.depth < fuel) : leavesUnder nm fuel id = t.leaves := by
  induction h generalizing fuel with
  | leaf x =>
    obtain ⟨n, rfl⟩ : ∃ n, fuel = n + 1 := ⟨fuel - 1, by omega⟩
    have hx := x.isLt
    have hid : (leafId x).setWidth 8 = x := by
      apply BitVec.eq_of_toNat_eq
      simp only [BitVec.toNat_setWidth, toNat_leafId]
      omega
    simp only [leavesUnder, toNat_leafId, hid, CodeTree.leaves]
    rw [if_pos (by omega)]
  | node id l r h _ _ ihl ihr =>
    obtain ⟨n, rfl⟩ : ∃ n, fuel = n + 1 := ⟨fuel - 1, by omega⟩
    simp only [CodeTree.depth] at hf
    simp only [leavesUnder, CodeTree.leaves]
    rw [if_neg (by omega), ihl n (by omega), ihr n (by omega)]

/-- Every path of the tree leads, in the node memory, to its leaf. -/
theorem Represents.follow_eq {nm : NodeMem} {id : NodeId} {t : CodeTree} (h : Represents nm id t) (p q : List Bool)
    (x : Sym) (hc : (x, p ++ q) ∈ t.codes p) : follow nm id q = some (leafId x) := by
  induction h generalizing p q with
  | leaf y =>
    simp only [CodeTree.codes, List.mem_singleton, Prod.mk.injEq] at hc
    obtain ⟨rfl, hq⟩ := hc
    have : q = [] := by simpa using hq
    subst this
    rfl
  | node id l r h _ _ ihl ihr =>
    simp only [CodeTree.codes, List.mem_append] at hc
    have step : ∀ (b : Bool) (t : CodeTree), (x, p ++ q) ∈ t.codes (p ++ [b]) →
        ∃ q', q = b :: q' ∧ (x, (p ++ [b]) ++ q') ∈ t.codes (p ++ [b]) := by
      intro b t hm
      obtain ⟨q', hq'⟩ := (t.codes_prefix _ _ hm).1
      have hq : q = b :: q' := by
        have : p ++ ([b] ++ q') = p ++ q := by simpa using hq'
        simpa using (List.append_cancel_left this).symm
      subst hq
      exact ⟨q', rfl, by simpa using hm⟩
    rcases hc with hc | hc
    · obtain ⟨q', rfl, hm⟩ := step false l hc
      simp only [follow]
      rw [if_neg (by omega)]
      exact ihl _ q' hm
    · obtain ⟨q', rfl, hm⟩ := step true r hc
      simp only [follow]
      rw [if_neg (by omega)]
      exact ihr _ q' hm

/-- A write of an id that no node of the tree has leaves the tree. -/
theorem Represents.writeNode {nm : NodeMem} {id : NodeId} {t : CodeTree} (h : Represents nm id t) (j : NodeId)
    (n : Node) (hj : 256 ≤ j.toNat) (hid : id.toNat < j.toNat)
    (hdown : ∀ i : NodeId, 256 ≤ i.toNat → i.toNat < j.toNat →
      (readNode nm i).left.toNat < i.toNat ∧ (readNode nm i).right.toNat < i.toNat) :
    Represents (writeNode nm j n) id t := by
  induction h with
  | leaf x => exact .leaf x
  | node id l r h _ _ ihl ihr =>
    have hne : id ≠ j := fun e => by subst e; omega
    obtain ⟨h1, h2⟩ := hdown id h hid
    refine .node id l r h ?_ ?_ <;> rw [readNode_writeNode_of_ne nm j id n hne]
    · exact ihl (by omega)
    · exact ihr (by omega)

/-! ### The merge loop -/

/-- What holds at every turn of the merge loop of a BUILD (R59, R61 to R65). -/
structure MergeOk (fc : FreqTable) (m : MergeState) : Prop where
  /-- Each merge takes one id out of W (R63). -/
  count : m.work.length + m.k = (presentSyms fc).length
  /-- W and the child links together name each present leaf and each internal node once (R65). -/
  links : (m.work ++ m.children).Perm ((presentSyms fc).map leafId ++ m.internalIds)
  /-- Children are made before their parents. -/
  down : ∀ i : NodeId, 256 ≤ i.toNat → i.toNat < 256 + m.k →
    (readNode m.nm i).left.toNat < i.toNat ∧ (readNode m.nm i).right.toNat < i.toNat
  /-- The leaves hold the counters. -/
  leaf_freq : ∀ x, (readNode m.nm (leafId x)).freq = freqOf fc x
  /-- A node's frequency is the sum of its children's (R58), in 32 bits. -/
  node_freq : ∀ i : NodeId, 256 ≤ i.toNat → i.toNat < 256 + m.k →
    (readNode m.nm i).freq = (readNode m.nm (readNode m.nm i).left).freq + (readNode m.nm (readNode m.nm i).right).freq
  /-- The nodes in W are the roots of trees that share out the present symbols. -/
  forest : ∃ ts, List.Forall₂ (Represents m.nm) m.work ts ∧ (ts.flatMap CodeTree.leaves).Perm (presentSyms fc)

theorem internalIds_toNat (m : MergeState) (hk : m.k ≤ 256) : ∀ id ∈ m.internalIds,
    256 ≤ id.toNat ∧ id.toNat < 256 + m.k := by
  intro id hid
  simp only [MergeState.internalIds, List.mem_map, List.mem_range] at hid
  obtain ⟨j, hj, rfl⟩ := hid
  rw [toNat_internalId j (by omega)]
  omega

theorem MergeOk.k_le {fc : FreqTable} {m : MergeState} (h : MergeOk fc m) : m.k ≤ 256 := by
  have := h.count
  have := length_presentSyms_le fc
  omega

/-- Every id in W is a present leaf or an internal node already made. -/
theorem MergeOk.work_lt {fc : FreqTable} {m : MergeState} (h : MergeOk fc m) :
    ∀ id ∈ m.work, id.toNat < 256 + m.k := by
  intro id hid
  have := h.links.subset (List.mem_append_left _ hid)
  rcases List.mem_append.mp this with h1 | h1
  · obtain ⟨x, -, rfl⟩ := List.mem_map.mp h1
    have := x.isLt
    simp
    omega
  · exact (internalIds_toNat m h.k_le id h1).2

/-- No id occurs twice in W and the child links (R59, R65). -/
theorem MergeOk.nodup {fc : FreqTable} {m : MergeState} (h : MergeOk fc m) : (m.work ++ m.children).Nodup := by
  refine h.links.nodup_iff.mpr (List.Nodup.append ?_ ?_ ?_)
  · exact (nodup_presentSyms fc).map (fun _ _ => leafId_injective)
  · refine List.Nodup.map_on ?_ List.nodup_range
    intro i hi j hj e
    rw [List.mem_range] at hi hj
    have := h.k_le
    have := congrArg BitVec.toNat e
    rw [toNat_internalId i (by omega), toNat_internalId j (by omega)] at this
    omega
  · intro id h1 h2
    obtain ⟨x, -, rfl⟩ := List.mem_map.mp h1
    have := internalIds_toNat m h.k_le _ h2
    have := x.isLt
    simp only [toNat_leafId] at *
    omega

theorem mergeOk_start (fc : FreqTable) : MergeOk fc (mergeStart fc) where
  count := by simp [mergeStart]
  links := by simp [mergeStart, MergeState.children, MergeState.internalIds]
  down := by
    intro i h1 h2
    simp only [mergeStart] at h2
    omega
  leaf_freq := readNode_loadLeaves fc
  node_freq := by
    intro i h1 h2
    simp only [mergeStart] at h2
    omega
  forest := by
    refine ⟨(presentSyms fc).map CodeTree.leaf, ?_, ?_⟩
    · simp only [mergeStart, List.forall₂_map_left_iff, List.forall₂_map_right_iff]
      exact List.forall₂_same.mpr fun x _ => .leaf x
    · simp [List.flatMap_map, CodeTree.leaves]

/-- One merge keeps `MergeOk`. -/
theorem MergeOk.mergeNodes {fc : FreqTable} {m : MergeState} (h : MergeOk fc m) {a b : NodeId} {rest : List NodeId}
    (hp : (a :: b :: rest).Perm m.work) : MergeOk fc (mergeNodes m a b rest) := by
  have hlen := hp.length_eq
  simp only [List.length_cons] at hlen
  have hcount := h.count
  have hle := length_presentSyms_le fc
  have hk : m.k < 255 := by omega
  have hid : (internalId m.k).toNat = 256 + m.k := toNat_internalId _ (by omega)
  have ha := h.work_lt a (hp.subset (by simp))
  have hb := h.work_lt b (hp.subset (by simp))
  have read_old : ∀ i : NodeId, i.toNat < 256 + m.k → ∀ n, readNode (writeNode m.nm (internalId m.k) n) i = readNode m.nm i := by
    intro i hi n
    exact readNode_writeNode_of_ne _ _ _ _ (fun e => by subst e; omega)
  have read_new : ∀ n, readNode (writeNode m.nm (internalId m.k) n) (internalId m.k) = n := by
    intro n
    exact readNode_writeNode_self _ _ _ (by omega)
  have is_new : ∀ i : NodeId, i.toNat < 256 + (m.k + 1) → ¬ i.toNat < 256 + m.k → i = internalId m.k := by
    intro i h1 h2
    exact BitVec.eq_of_toNat_eq (by omega)
  refine { count := ?_, links := ?_, down := ?_, leaf_freq := ?_, node_freq := ?_, forest := ?_ }
  · simp only [Machine.mergeNodes, List.length_cons]
    omega
  · have hi : (Machine.mergeNodes m a b rest).internalIds = m.internalIds ++ [internalId m.k] := by
      simp [MergeState.internalIds, Machine.mergeNodes, List.range_succ]
    have hc : (Machine.mergeNodes m a b rest).children = m.children ++ [a, b] := by
      unfold MergeState.children
      rw [hi, List.flatMap_append]
      congr 1
      · refine List.flatMap_congr ?_
        intro n hn
        have := internalIds_toNat m h.k_le n hn
        simp only [Machine.mergeNodes]
        rw [read_old n this.2]
      · simp only [List.flatMap_singleton, Machine.mergeNodes]
        rw [read_new]
    rw [hi, hc]
    simp only [Machine.mergeNodes]
    have e1 : (internalId m.k :: rest ++ (m.children ++ [a, b])).Perm ((a :: b :: rest ++ m.children) ++ [internalId m.k]) := by
      rw [← Multiset.coe_eq_coe]
      simp only [← Multiset.cons_coe, ← Multiset.coe_add, List.cons_append]
      simp only [Multiset.add_cons, add_zero, Multiset.coe_nil]
      rw [Multiset.cons_swap]
      congr 1
      rw [Multiset.cons_swap]
    refine e1.trans ?_
    rw [← List.append_assoc]
    exact ((hp.append_right _).trans h.links).append_right _
  · intro i h1 h2
    simp only [Machine.mergeNodes] at h2 ⊢
    by_cases hi : i.toNat < 256 + m.k
    · rw [read_old i hi]
      exact h.down i h1 hi
    · have := is_new i h2 hi
      subst this
      rw [read_new]
      exact ⟨hid ▸ ha, hid ▸ hb⟩
  · intro x
    have := x.isLt
    simp only [Machine.mergeNodes]
    rw [read_old _ (by simp; omega)]
    exact h.leaf_freq x
  · intro i h1 h2
    simp only [Machine.mergeNodes] at h2 ⊢
    by_cases hi : i.toNat < 256 + m.k
    · have := h.down i h1 hi
      rw [read_old i hi, read_old _ (by omega), read_old _ (by omega)]
      exact h.node_freq i h1 hi
    · have := is_new i h2 hi
      subst this
      rw [read_new, read_old a ha, read_old b hb]
  · obtain ⟨ts, hts, hperm⟩ := h.forest
    obtain ⟨ts', hts', hpt⟩ : ∃ ts', List.Forall₂ (Represents m.nm) (a :: b :: rest) ts' ∧ ts'.Perm ts := by
      have := List.forall₂_comp_perm_eq_perm_comp_forall₂ (r := Represents m.nm)
      have h2 : Relation.Comp List.Perm (List.Forall₂ (Represents m.nm)) (a :: b :: rest) ts := ⟨m.work, hp, hts⟩
      rw [← this] at h2
      exact h2
    cases hts' with
    | @cons _ ta _ t1 hra h' =>
      cases h' with
      | @cons _ tb _ t2 hrb hrest =>
        have keep : ∀ id t, id.toNat < 256 + m.k → Represents m.nm id t →
            Represents (Machine.mergeNodes m a b rest).nm id t := by
          intro id t hlt hr
          exact hr.writeNode _ _ (by omega) (by omega) (fun i h1 h2 => h.down i h1 (by omega))
        refine ⟨.node ta tb :: t2, .cons ?_ ?_, ?_⟩
        · refine .node _ _ _ (by omega) ?_ ?_
          · simp only [Machine.mergeNodes]
            rw [read_new]
            exact keep a ta ha hra
          · simp only [Machine.mergeNodes]
            rw [read_new]
            exact keep b tb hb hrb
        · have hmem : ∀ id ∈ rest, id.toNat < 256 + m.k := fun id hr => h.work_lt id (hp.subset (by simp [hr]))
          simp only [Machine.mergeNodes] at keep ⊢
          clear hpt hp hlen
          induction hrest with
          | nil => exact .nil
          | cons hr _ ih =>
            exact .cons (keep _ _ (hmem _ (by simp)) hr) (ih (fun id hm => hmem id (by simp [hm])))
        · have e : ((CodeTree.node ta tb :: t2).flatMap CodeTree.leaves) = ((ta :: tb :: t2).flatMap CodeTree.leaves) := by
            simp [CodeTree.leaves]
          rw [e]
          exact (hpt.flatMap_right _).trans hperm

/-- `MergeOk` holds at every turn. -/
theorem mergeOk_loop (fc : FreqTable) (n : Nat) (m : MergeState) (h : MergeOk fc m) : MergeOk fc (mergeLoop n m) := by
  induction n generalizing m with
  | zero => exact h
  | succ n ih =>
    rw [mergeLoop]
    split
    · exact h
    · rename_i m' hm
      obtain ⟨a, b, rest, hp, -, -, rfl⟩ := mergeOnce_spec hm
      exact ih _ (h.mergeNodes hp)

theorem mergeOk_build (fc : FreqTable) : MergeOk fc (buildTree fc) := mergeOk_loop fc 255 _ (mergeOk_start fc)

/-- n turns leave at most one node, when there were at most n + 1. -/
theorem mergeLoop_length_le (n : Nat) (m : MergeState) (h : m.work.length ≤ n + 1) :
    (mergeLoop n m).work.length ≤ 1 := by
  induction n generalizing m with
  | zero => simpa [mergeLoop] using h
  | succ n ih =>
    rw [mergeLoop]
    split
    · rename_i hm
      exact mergeOnce_eq_none.mp hm
    · rename_i m' hm
      obtain ⟨a, b, rest, hp, -, -, rfl⟩ := mergeOnce_spec hm
      have := hp.length_eq
      simp only [List.length_cons] at this
      exact ih _ (by simp only [mergeNodes, List.length_cons]; omega)

/-- The finished tree of a BUILD with at least one present symbol: one root, whose tree has the present symbols as its
leaves (R54, R61, R65). -/
theorem buildTree_spec (fc : FreqTable) (h : presentSyms fc ≠ []) :
    ∃ r t, (buildTree fc).work = [r] ∧ Represents (buildTree fc).nm r t ∧ t.leaves.Perm (presentSyms fc) ∧
      t.depth < 256 := by
  have hok := mergeOk_build fc
  have hle : (buildTree fc).work.length ≤ 1 := by
    refine mergeLoop_length_le 255 _ ?_
    simpa [mergeStart] using length_presentSyms_le fc
  obtain ⟨ts, hts, hperm⟩ := hok.forest
  generalize (buildTree fc).work = work at hle hts
  cases hts with
  | nil => exact absurd hperm.symm.eq_nil h
  | @cons r t _ _ hr hrest =>
    cases hrest with
    | cons _ _ => simp at hle
    | nil =>
      have hp : t.leaves.Perm (presentSyms fc) := by simpa using hperm
      refine ⟨r, t, rfl, hr, hp, ?_⟩
      have := t.depth_lt
      have := hp.length_eq
      have := length_presentSyms_le fc
      omega

/-! ### The table -/

/-- Writing a list of codes with distinct symbols leaves each symbol's own code, and the others as they were. -/
theorem entryOf_foldl_codes (l : List (Sym × List Bool)) (ct : CodeTable) (hn : (l.map Prod.fst).Nodup) (x : Sym) :
    (∀ q, (x, q) ∈ l → entryOf (l.foldl (fun ct c => setEntry ct c.1 (CtEntry.ofBits c.2)) ct) x = CtEntry.ofBits q) ∧
      (x ∉ l.map Prod.fst →
        entryOf (l.foldl (fun ct c => setEntry ct c.1 (CtEntry.ofBits c.2)) ct) x = entryOf ct x) := by
  induction l generalizing ct with
  | nil => simp
  | cons c l ih =>
    simp only [List.map_cons, List.nodup_cons] at hn
    obtain ⟨hc, hn⟩ := hn
    obtain ⟨ih1, ih2⟩ := ih (setEntry ct c.1 (CtEntry.ofBits c.2)) hn
    simp only [List.foldl_cons, List.mem_cons, List.map_cons, not_or]
    refine ⟨?_, ?_⟩
    · rintro q (e | hq)
      · subst e
        rw [ih2 hc, entryOf_setEntry_self]
      · exact ih1 q hq
    · rintro ⟨hne, hx⟩
      rw [ih2 hx, entryOf_setEntry_of_ne _ _ _ _ hne]

/-- The table a BUILD commits, read from the finished tree: the path of each present symbol, code "0" for the only
symbol of a one-symbol table, and no code for the others (R68 to R70). -/
theorem builtTable_entry (fc : FreqTable) (h : presentSyms fc ≠ []) :
    ∃ r t, (buildTree fc).root = some r ∧ Represents (buildTree fc).nm r t ∧ t.leaves.Perm (presentSyms fc) ∧
      t.depth < 256 ∧
      (∀ l l', t = .node l l' → ∀ x q, (x, q) ∈ t.codes [] → entryOf (builtTable fc) x = CtEntry.ofBits q) ∧
      (∀ x, t = .leaf x → entryOf (builtTable fc) x = CtEntry.ofBits [false]) ∧
      ∀ x, x ∉ presentSyms fc → entryOf (builtTable fc) x = CtEntry.empty := by
  obtain ⟨r, t, hw, hr, hp, hd⟩ := buildTree_spec fc h
  have hroot : (buildTree fc).root = some r := by simp [MergeState.root, hw]
  have htab : builtTable fc = tableFrom (buildTree fc).nm r := by simp [builtTable, hroot]
  refine ⟨r, t, hroot, hr, hp, hd, ?_⟩
  rw [htab]
  have hnd : ((t.codes []).map Prod.fst).Nodup := by
    rw [CodeTree.codes_fst]
    exact hp.nodup_iff.mpr (nodup_presentSyms fc)
  cases hr with
  | leaf y =>
    have hy := y.isLt
    have hid : (leafId y).setWidth 8 = y := by
      apply BitVec.eq_of_toNat_eq
      simp only [BitVec.toNat_setWidth, toNat_leafId]
      omega
    have ht : tableFrom (buildTree fc).nm (leafId y) = setEntry clearedTable y (CtEntry.ofBits [false]) := by
      unfold tableFrom
      rw [if_pos (by simp; omega), hid]
    rw [ht]
    refine ⟨(fun l l' e => by cases e), (fun x e => by cases e; exact entryOf_setEntry_self _ _ _), ?_⟩
    intro x hx
    have hne : x ≠ y := fun e => hx (e ▸ hp.subset (by simp [CodeTree.leaves]))
    rw [entryOf_setEntry_of_ne _ _ _ _ hne, entryOf_cleared]
  | node _ l l' h256 hl hl' =>
    have ht := (Represents.node r l l' h256 hl hl').walk_eq 256 hd [] clearedTable
    have htf : tableFrom (buildTree fc).nm r = walk (buildTree fc).nm 256 r [] clearedTable := by
      unfold tableFrom
      rw [if_neg (by omega)]
    rw [htf, ht]
    refine ⟨(fun _ _ _ x q hq => (entryOf_foldl_codes _ _ hnd x).1 q hq), (fun x e => by cases e), ?_⟩
    intro x hx
    rw [(entryOf_foldl_codes _ _ hnd x).2, entryOf_cleared]
    rw [CodeTree.codes_fst]
    exact fun hm => hx (hp.subset hm)

end Sys2Proof.Machine
end

