-- ==== Sys2Proof/Tests/Slice0.lean ====
section
/-! SUPPORT. The model's own tests: ill-formed terms, words written out from the spec's encodings, one-step vectors of
spec 95, and for each obligation with hypotheses a state that meets them. -/

namespace Sys2Proof.Tests

open Sys2Proof Sys2Proof.Machine

/-! ### Ill-formed terms (R8, R31, R32) -/

theorem test_wf_depth_254_refused : Config.wf { obufDepth := 254, regBase := 0 } = false := by decide
theorem test_wf_depth_65536_refused : Config.wf { obufDepth := 65536, regBase := 0 } = false := by decide
theorem test_wf_depth_bounds : Config.wf { obufDepth := 255, regBase := 7 } = true ∧
    Config.wf { obufDepth := 65535, regBase := 0 } = true := by decide
theorem test_wf_access_misaligned_refused : accessWf 0x02 32 = false := by decide
theorem test_wf_access_outside_refused : accessWf 0x100 32 = false := by decide
theorem test_wf_access_byte_refused : accessWf 0x04 8 = false := by decide
theorem test_wf_access_half_refused : accessWf 0x04 16 = false := by decide
theorem test_wf_access_last_offset : accessWf 0xFC 32 = true := by decide
/-- No term of `Instr` is ill formed (R45): both ends of the symbol's range are accepted. -/
theorem test_wf_instr_symbols : Instr.wf (.cnt 0x00#8) = true ∧ Instr.wf (.enc 0xFF#8) = true := by decide

/-! ### Words written out bit by bit: OP [31:24], RSV [23:8], SYM [7:0] (R44, R46, R48) -/

theorem test_decode_nop : decode 0b00000000_0000000000000000_00000000#32 = .ok .nop := by decide
theorem test_decode_clr : decode 0b00000001_0000000000000000_00000000#32 = .ok .clr := by decide
theorem test_decode_cnt : decode 0b00000010_0000000000000000_01100001#32 = .ok (.cnt 97#8) := by decide
theorem test_decode_build : decode 0b00000011_0000000000000000_00000000#32 = .ok .build := by decide
theorem test_decode_estart : decode 0b00000100_0000000000000000_00000000#32 = .ok .estart := by decide
theorem test_decode_enc : decode 0b00000101_0000000000000000_11111111#32 = .ok (.enc 255#8) := by decide
theorem test_decode_unassigned : decode 0b00000110_0000000000000000_00000000#32 = .error .unassignedOpcode := by decide
theorem test_decode_reserved_low : decode 0b00000010_0000000000000001_01100001#32 = .error .reservedBits := by decide
theorem test_decode_reserved_high : decode 0b00000101_1000000000000000_11111111#32 = .error .reservedBits := by decide
theorem test_decode_symbol_on_nop : decode 0b00000000_0000000000000000_11111111#32 = .error .symbolBits := by decide
theorem test_decode_symbol_on_estart : decode 0b00000100_0000000000000000_10000000#32 = .error .symbolBits := by decide
/-- The words of spec 30 (R46), from the encoder. -/
theorem test_encode_words : encode .nop = 0x00000000#32 ∧ encode .clr = 0x01000000#32 ∧
    encode (.cnt 0x61#8) = 0x02000061#32 ∧ encode .build = 0x03000000#32 ∧ encode .estart = 0x04000000#32 ∧
    encode (.enc 0xFF#8) = 0x050000FF#32 := by decide
theorem test_decodeTableWord_enc : decodeTableWord 32 0x05000063 = some (.enc 0x63#8) := by decide
theorem test_decodeTableWord_illegal : decodeTableWord 32 0x06000000 = none := by decide

/-! ### Small states -/

/-- The state an outcome leads to. -/
def got (o : Host.Outcome State Fault Refusal) : Option State :=
  match o with
  | .next t => some t
  | .fault _ => none
  | .refused _ => none

/-- The fault an outcome stops with. -/
def faultOf (o : Host.Outcome State Fault Refusal) : Option Fault :=
  match o with
  | .next _ => none
  | .fault f => some f
  | .refused _ => none

/-- The refusal an outcome stops with. -/
def refusalOf (o : Host.Outcome State Fault Refusal) : Option Refusal :=
  match o with
  | .next _ => none
  | .fault _ => none
  | .refused r => some r

/-- The counters of the input "aaabbc" (spec 95, 1.1). -/
def abcCounts : FreqTable := setFreq (setFreq (setFreq clearedFreq 0x61#8 3#32) 0x62#8 2#32) 0x63#8 1#32

/-- The counters of the input "zzzz" (spec 95, 1.2). -/
def zCounts : FreqTable := setFreq clearedFreq 0x7A#8 4#32

/-- COUNT, after the input "zzzz". -/
def counted : State := { State.reset with fc := zCounts, total := 4#32 }

/-- BUILD in flight on "zzzz". -/
def building : State := { counted with busy := true, inflight := .build }

/-- BUILD in flight with an overrun by ENC 'b' recorded (spec 95, 2.6). -/
def overrunBuilding : State :=
  { building with ovrp := true, errCode := .cmdOverrun, errSym := 0x62#8, errOp := 0x05#8 }

/-- READY with the table of "zzzz". -/
def ready : State :=
  { counted with phase := .ready, tvalid := true, ct := builtTable zCounts, rootFreq := builtRootFreq zCounts }

/-- ENC 'z' in flight. -/
def encoding : State := { ready with busy := true, inflight := .enc 0x7A#8 }

/-- ENC 'z' in flight with an overrun recorded. -/
def overrunEncoding : State :=
  { encoding with ovrp := true, errCode := .cmdOverrun, errSym := 0x62#8, errOp := 0x05#8 }

/-- ENC 'z' waiting for output space: OBUF_DEPTH 255, all of it full after 255 ENC 'z' (R84). -/
def held : State :=
  { encoding with
    cfg := { obufDepth := 255, regBase := 0 }, obuf := List.replicate 255 false, symcnt := 255#32, bitcnt := 255#64 }

/-- ERROR with a table, after ENC 'd' (spec 95, 1.4). -/
def failed : State := ready.raise .unencodableSymbol 0x05000064#32

/-- ERROR without a table, after BUILD of an empty input (spec 95, 1.3). -/
def failedEmpty : State := State.reset.raise .emptyInput 0x03000000#32

/-- READY with the table of "aaabbc". -/
def abcReady : State :=
  { State.reset with
    fc := abcCounts, total := 6#32, phase := .ready, tvalid := true, ct := builtTable abcCounts,
    rootFreq := builtRootFreq abcCounts }

/-! ### One step of each command, and of the ENGINE (spec 95) -/

theorem test_nop_while_busy : exec .nop building = .next building := by rfl

/-- 2.5: CLR with an overrun recorded gives STATUS 0 and ERR 0. -/
theorem test_clr_while_busy : (got (exec .clr overrunBuilding)).map
    (fun t => (regValue .status t, regValue .err t, t.total, t.nsym)) = some (0#32, 0#32, 0#32, 0) := by
  decide +kernel

/-- 2.2: CNT 'a' from S0. -/
theorem test_cnt_from_reset : (got (exec (.cnt 0x61#8) State.reset)).map
    (fun t => (freqOf t.fc 0x61#8, freqOf t.fc 0x62#8, t.total, t.nsym, regValue .status t))
      = some (1#32, 0#32, 1#32, 1, 0#32) := by decide +kernel

/-- 2.2: CNT 'c' while a BUILD is in flight. -/
theorem test_cnt_overrun : (got (exec (.cnt 0x63#8) building)).map
    (fun t => (regValue .err t, regValue .status t, t.total)) = some (0x00026307#32, 0x21#32, 4#32) := by
  decide +kernel

/-- 1.3: BUILD of an empty input. -/
theorem test_build_empty : (got (exec .build State.reset)).map
    (fun t => (regValue .err t, regValue .status t)) = some (0x00030001#32, 0x08#32) := by decide +kernel

/-- 2.3: BUILD issued; nothing shown until `Complete()`. -/
theorem test_build_issue : (got (exec .build counted)).map
    (fun t => (regValue .status t, regValue .tabInfo { t with tabSel := 0x7A#8 })) = some (0x01#32, 0x100#32) := by
  decide +kernel

/-- 1.1: the table of "aaabbc": a "0", b "11", c "10". -/
theorem test_abc_codes : [0x61#8, 0x62#8, 0x63#8, 0x64#8].map (fun x => (entryOf (builtTable abcCounts) x).bits)
    = [[false], [true, true], [true, false], []] := by decide +kernel

/-- 1.1: the merge trace of "aaabbc": 256 = (3, c, b), 257 = (6, a, 256), root 257. -/
theorem test_abc_merges : (buildTree abcCounts).root = some 257#9 ∧
    readNode (buildTree abcCounts).nm 256#9 = { freq := 3#32, left := 0x63#9, right := 0x62#9 } ∧
    readNode (buildTree abcCounts).nm 257#9 = { freq := 6#32, left := 0x61#9, right := 256#9 } := by decide +kernel

/-- 1.2: BUILD of "zzzz" completes with the one code "0". -/
theorem test_complete_build : (got (engineStep building)).map
    (fun t => (regValue .status t, t.rootFreq, (entryOf t.ct 0x7A#8).bits, (entryOf t.ct 0x61#8).len))
      = some (0x14#32, 4#32, [false], 0#8) := by decide +kernel

/-- 2.6: a BUILD that completes after an overrun enters ERROR with its table committed. -/
theorem test_complete_build_overrun : (got (engineStep overrunBuilding)).map
    (fun t => (regValue .status t, regValue .err t)) = some (0x18#32, 0x00056207#32) := by decide +kernel

/-- 2.4: ESTART in ERROR with a table. -/
theorem test_estart_from_error : (got (exec .estart { failed with obuf := [true, false], symcnt := 2#32 })).map
    (fun t => (regValue .status t, regValue .err t, t.symcnt, t.obuf)) = some (0x14#32, 0#32, 0#32, []) := by
  decide +kernel

/-- 2.4: ESTART in COUNT. -/
theorem test_estart_in_count : (got (exec .estart State.reset)).map (fun t => regValue .err t)
    = some 0x00040004#32 := by decide +kernel

/-- 1.4: ENC of an absent symbol names it. -/
theorem test_enc_absent : (got (exec (.enc 0x64#8) ready)).map (fun t => (regValue .err t, regValue .status t))
    = some (0x00056402#32, 0x18#32) := by decide +kernel

/-- 2.4: ENC issued: STATUS 0x15, nothing pushed yet. -/
theorem test_enc_issue : (got (exec (.enc 0x7A#8) ready)).map (fun t => (regValue .status t, t.obuf, t.symcnt))
    = some (0x15#32, [], 0#32) := by decide +kernel

/-- 2.4: ENC 'c' of "aaabbc" pushes 1 then 0; the bit counter carries into its high half. -/
theorem test_complete_enc : (got (engineStep { abcReady with
      busy := true, inflight := .enc 0x63#8, symcnt := 0xFFFFFFFE#32, bitcnt := 0xFFFFFFFF#64 })).map
    (fun t => (t.obuf, t.symcnt, regValue .bitcntLo t, regValue .bitcntHi t))
      = some ([true, false], 0xFFFFFFFF#32, 0x00000001#32, 0x00000001#32) := by decide +kernel

/-- 2.4, HOLD: STATUS 0x17, the ENGINE has no step. -/
theorem test_hold : regValue .status held = 0x17#32 ∧ faultOf (engineStep held) = some .engineNotEnabled := by
  decide +kernel

/-- 2.7: an access at offset 0x02 and a byte access are refused. -/
theorem test_refused_accesses : refusalOf (hostStep { addr := 2, width := .word, op := .read } State.reset) = some .misalignedAccess ∧
    refusalOf (hostStep { addr := 8, width := .byte, op := .read } State.reset) = some .narrowAccess ∧
    refusalOf (hostStep { addr := 0x100, width := .word, op := .read } State.reset) = some .outsideWindow := by
  decide +kernel

/-- 2.7: WR TAB_SEL, 0x1FF keeps bits [7:0]. -/
theorem test_tab_sel_write : (got (busWrite 0x18 0x1FF#32 State.reset)).map (fun t => regValue .tabSel t)
    = some 0xFF#32 := by decide +kernel

/-- 2.7: every register but ID and PARAM reads 0 in S0. -/
theorem test_reset_registers : ((List.range 24).map (fun i => regValue (regAt (4 * i)) State.reset))
    = 0x48554631#32 :: (List.replicate 14 0#32 ++ 0x00000400#32 :: List.replicate 8 0#32) := by decide +kernel

/-- The expansion of `RDTAB 'a'` (R51): the last of its eleven accesses reads TAB_CODE7. -/
theorem test_rdtab : (HostStatement.rdtab 0x61#8).length = 11 ∧
    (HostStatement.rdtab 0x61#8).head? = some (.wr 0x18 0x61#32) ∧
    (HostStatement.rdtab 0x61#8).getLast? = some (.rd 0x5C) := by decide

/-! ### States that meet the invariants -/

theorem freqSum_zCounts : freqSum zCounts = 4 := by decide +kernel

theorem freq_le_zCounts (x : Sym) : (freqOf zCounts x).toNat ≤ 4 := by
  by_cases h : x = 0x7A#8
  · subst h; simp [zCounts]
  · simp [zCounts, freqOf_setFreq_of_ne _ _ _ _ h]

theorem len_z : (entryOf (builtTable zCounts) 0x7A#8).len = 1#8 := by decide +kernel

theorem nsym_counted : counted.nsym = 1 := by decide +kernel

theorem counts_of_counted (s : State) (hf : s.fc = zCounts) (ht : s.total = 4#32) : CountsOk s :=
  ⟨by rw [hf, ht, freqSum_zCounts]; rfl, by intro x; rw [hf, ht]; exact freq_le_zCounts x⟩

theorem witness_inv_reset : StateInv State.reset where
  cfg_wf := by decide
  long := ⟨(by decide),
    (by decide),
    (by decide),
    (by decide),
    (by decide)⟩
  counts := ⟨by decide +kernel, by intro x; show (freqOf clearedFreq x).toNat ≤ 0; simp⟩
  count_phase := fun _ => ⟨rfl, rfl, rfl, rfl, rfl⟩
  err := by simp [ErrOk, State.reset]
  ovrp_busy := by decide
  ready_table := by decide
  build_nonempty := by decide
  enc_stat := by intro x h; cases h
  table_built := by intro h; cases h
  no_table := fun _ => ⟨rfl, rfl⟩
  bits_bound := by decide

theorem witness_inv_overrunBuilding : StateInv overrunBuilding where
  cfg_wf := by decide
  long := ⟨(by simp [overrunBuilding, building]),
    (by intro _ h; cases h),
    fun _ => rfl,
    (by intro x h; cases h),
    Nat.zero_le _⟩
  counts := counts_of_counted _ rfl rfl
  count_phase := fun _ => ⟨rfl, rfl, rfl, rfl, rfl⟩
  err := by simp [ErrOk, overrunBuilding, building]
  ovrp_busy := fun _ => rfl
  ready_table := by intro h; cases h
  build_nonempty := fun _ => by show counted.nsym ≠ 0; rw [nsym_counted]; decide
  enc_stat := by intro x h; cases h
  table_built := by intro h; cases h
  no_table := fun _ => ⟨rfl, rfl⟩
  bits_bound := by decide

theorem witness_inv_building : StateInv building where
  cfg_wf := by decide
  long := ⟨(by simp [building]),
    (by intro _ h; cases h),
    fun _ => rfl,
    (by intro x h; cases h),
    Nat.zero_le _⟩
  counts := counts_of_counted _ rfl rfl
  count_phase := fun _ => ⟨rfl, rfl, rfl, rfl, rfl⟩
  err := by simp [ErrOk, building, counted, State.reset]
  ovrp_busy := by intro h; cases h
  ready_table := by intro h; cases h
  build_nonempty := fun _ => by show counted.nsym ≠ 0; rw [nsym_counted]; decide
  enc_stat := by intro x h; cases h
  table_built := by intro h; cases h
  no_table := fun _ => ⟨rfl, rfl⟩
  bits_bound := by decide

theorem witness_inv_ready : StateInv ready where
  cfg_wf := by decide
  long := ⟨(by simp [ready, counted, State.reset]),
    (by intro h; cases h),
    (by intro h; cases h),
    (by intro x h; cases h),
    Nat.zero_le _⟩
  counts := counts_of_counted _ rfl rfl
  count_phase := by intro h; cases h
  err := by simp [ErrOk, ready, counted, State.reset]
  ovrp_busy := by intro h; cases h
  ready_table := fun _ => rfl
  build_nonempty := by intro h; cases h
  enc_stat := by intro x h; cases h
  table_built := fun _ => ⟨rfl, rfl, by show counted.nsym ≠ 0; rw [nsym_counted]; decide⟩
  no_table := by intro h; cases h
  bits_bound := by decide

theorem witness_inv_overrunEncoding : StateInv overrunEncoding where
  cfg_wf := by decide
  long := ⟨(by simp [overrunEncoding, encoding]),
    (by intro _ h; cases h),
    (by intro h; cases h),
    (by intro x h; cases h; exact ⟨rfl, rfl, by show (entryOf (builtTable zCounts) 0x7A#8).len ≠ 0#8; rw [len_z]; decide⟩),
    Nat.zero_le _⟩
  counts := counts_of_counted _ rfl rfl
  count_phase := by intro h; cases h
  err := by simp [ErrOk, overrunEncoding, encoding]
  ovrp_busy := fun _ => rfl
  ready_table := fun _ => rfl
  build_nonempty := by intro h; cases h
  enc_stat := by intro x _; show (0#32 : Word) ≠ _; decide
  table_built := fun _ => ⟨rfl, rfl, by show counted.nsym ≠ 0; rw [nsym_counted]; decide⟩
  no_table := by intro h; cases h
  bits_bound := by decide

theorem witness_inv_held : StateInv held where
  cfg_wf := by decide
  long := ⟨(by show true = true ↔ Inflight.enc 0x7A#8 ≠ .none; decide),
    (by intro _ h; cases h),
    (by intro h; cases h),
    (by intro x h; cases h; exact ⟨rfl, rfl, by show (entryOf (builtTable zCounts) 0x7A#8).len ≠ 0#8; rw [len_z]; decide⟩),
    (by show (List.replicate 255 false).length ≤ 255; rw [List.length_replicate])⟩
  counts := counts_of_counted _ rfl rfl
  count_phase := by intro h; cases h
  err := by show ErrCode.none ≠ .none ↔ Phase.ready = .error ∨ (true = true ∧ false = true); decide
  ovrp_busy := by intro h; cases h
  ready_table := fun _ => rfl
  build_nonempty := by intro h; cases h
  enc_stat := by intro x _; show (255#32 : Word) ≠ _; decide
  table_built := fun _ => ⟨rfl, rfl, by show counted.nsym ≠ 0; rw [nsym_counted]; decide⟩
  no_table := by intro h; cases h
  bits_bound := by show (255#64 : BitCount).toNat ≤ 255 * (255#32 : Word).toNat; decide

theorem witness_inv_failed : StateInv failed where
  cfg_wf := by decide
  long := ⟨(by simp [failed, ready, counted, State.reset, State.raise, State.recordErr]),
    (by intro h; cases h),
    (by intro h; cases h),
    (by intro x h; cases h),
    Nat.zero_le _⟩
  counts := counts_of_counted _ rfl rfl
  count_phase := by intro h; cases h
  err := by simp [ErrOk, failed, State.raise, State.recordErr]
  ovrp_busy := by intro h; cases h
  ready_table := by intro h; cases h
  build_nonempty := by intro h; cases h
  enc_stat := by intro x h; cases h
  table_built := fun _ => ⟨rfl, rfl, by show counted.nsym ≠ 0; rw [nsym_counted]; decide⟩
  no_table := by intro h; cases h
  bits_bound := by decide

/-! ### For each obligation with hypotheses, states and operands that meet them

The name after `witness_` is the obligation's; an obligation that is not here has no hypotheses, or is about every
value of its variables. -/

theorem witness_IllegalWordsRaiseIllegalCommand :
    rsvField 0x0200FF61#32 ≠ 0#16 ∧
      (symField 0x01000001#32 ≠ 0#8 ∧ (opField 0x01000001#32).toNat ∈ [0x00, 0x01, 0x03, 0x04]) ∧
      0x06 ≤ (opField 0x06000000#32).toNat ∧ 0x06 ≤ (opField 0xFFFFFFFF#32).toNat ∧
      (legal 0x06000000#32 = false ∧ State.reset.busy = false ∧ State.reset.phase ≠ .error) ∧
      legal 0x050100FF#32 = false ∧ ready.busy = false ∧ ready.phase ≠ .error := by
  refine ⟨by decide, by decide, by decide, by decide, ⟨by decide, rfl, by decide⟩, by decide, rfl, ?_⟩
  intro h; cases h

theorem witness_IssueFollowsItsPseudocode :
    building.busy = true ∧ 0x06000000#32 ≠ 0x00000000#32 ∧ 0x06000000#32 ≠ 0x01000000#32 := ⟨rfl, by decide, by decide⟩

theorem witness_ErrorPriority :
    (legal 0x05010061#32 = false ∧ ready.busy = false ∧ ready.phase ≠ .error ∧ ∃ t, issue 0x05010061#32 ready = .next t) ∧
      (ready.busy = false ∧ ready.phase = .ready ∧ ∃ t, issue (encode (.cnt 0x61#8)) ready = .next t) ∧
      (counted.busy = false ∧ counted.phase = .count ∧ ∃ t, issue (encode (.enc 0x64#8)) counted = .next t) ∧
      (ready.busy = false ∧ ready.phase = .ready ∧ (entryOf ready.ct 0x64#8).len = 0#8 ∧
        ∃ t, issue (encode (.enc 0x64#8)) ready = .next t) ∧
      (building.busy = true ∧ building.ovrp = false ∧ encode (.enc 0x62#8) ≠ encode .nop ∧
        encode (.enc 0x62#8) ≠ encode .clr ∧ ∃ t, issue (encode (.enc 0x62#8)) building = .next t) ∧
      overrunBuilding.busy = true ∧ overrunBuilding.ovrp = true ∧ 0x06000000#32 ≠ encode .clr ∧
      ∃ t, issue 0x06000000#32 overrunBuilding = .next t := by
  have hd : (entryOf ready.ct 0x64#8).len = 0#8 := by decide +kernel
  exact ⟨⟨by decide, rfl, (by intro h; cases h), issue_next _ _⟩, ⟨rfl, rfl, issue_next _ _⟩, ⟨rfl, rfl, issue_next _ _⟩,
    ⟨rfl, rfl, hd, issue_next _ _⟩, ⟨rfl, rfl, by decide, by decide, issue_next _ _⟩, rfl, rfl, by decide,
    issue_next _ _⟩

theorem witness_ErrorsArePrecise :
    State.reset.phase ≠ .error ∧ ∃ t, issue 0x06000000#32 State.reset = .next t ∧ t.phase = .error :=
  ⟨by decide, _, rfl, rfl⟩

theorem witness_ErrorsAreRaisedAtIssue :
    (∃ t, issue 0x06000000#32 State.reset = .next t ∧ t.errCode ≠ State.reset.errCode) ∧
      (∃ t, issue 0x06000000#32 building = .next t ∧ t.errCode ≠ building.errCode) ∧
      (∃ t, issue 0x01000000#32 failedEmpty = .next t ∧ t.errCode ≠ failedEmpty.errCode) ∧
      ∃ t, Machine.step (State.reset.withFetchWord 32 0x06000000) = .next t ∧ t.errCode ≠ State.reset.errCode := by
  refine ⟨⟨_, rfl, ?_⟩, ⟨_, rfl, ?_⟩, ⟨_, rfl, ?_⟩, _, rfl, ?_⟩ <;> (intro h; cases h)

theorem witness_ErrorPhaseDiscardsCommands :
    (failed.phase = .error ∧ failed.busy = false ∧ encode (.enc 0x7A#8) ≠ encode .clr ∧
        ¬ (encode (.enc 0x7A#8) = encode .estart ∧ failed.tvalid = true)) ∧
      (failedEmpty.phase = .error ∧ failedEmpty.busy = false ∧ encode .estart ≠ encode .clr ∧
        ¬ (encode .estart = encode .estart ∧ failedEmpty.tvalid = true)) ∧
      Reg.err ≠ .status ∧ (1 : Nat) ≠ 2 ∧ (1 : Nat) ≠ 3 ∧ (4 : Nat) ≠ 2 ∧ (4 : Nat) ≠ 3 :=
  ⟨⟨rfl, rfl, by decide, by decide⟩, ⟨rfl, rfl, by decide, by decide⟩, by decide⟩

/-- `failed` and `failedEmpty` with one more event to come. -/
theorem witness_inv_of_events (s : State) (es : List Event) (h : StateInv s) : StateInv { s with events := es } :=
  ⟨h.cfg_wf, ⟨h.long.busy_iff, h.long.busy_phase, h.long.build_phase, h.long.enc_ready, h.long.fifo_bound⟩,
    ⟨h.counts.total_eq, h.counts.freq_le⟩, h.count_phase, h.err, h.ovrp_busy, h.ready_table, h.build_nonempty, h.enc_stat,
    h.table_built, h.no_table, h.bits_bound⟩

theorem witness_LeavingTheErrorPhase :
    (∃ s t, StateInv s ∧ s.phase = .error ∧ Machine.step s = .next t ∧ t.phase ≠ .error ∧
        s.nextCommand = some (encode .estart)) ∧
      (∃ s t, StateInv s ∧ s.phase = .error ∧ Machine.step s = .next t ∧ t.phase ≠ .error ∧ s.nextIsReset = true) ∧
      (StateInv State.reset ∧ State.reset.phase = .count ∧
        ∃ t, issue (encode .estart) State.reset = .next t ∧ t.phase = .error) ∧
      (StateInv ready ∧ ready.phase = .ready ∧ ∃ t, issue (encode .build) ready = .next t ∧ t.phase = .error) ∧
      (StateInv overrunBuilding ∧ overrunBuilding.busy = true ∧ overrunBuilding.complete.phase = .error) ∧
      StateInv overrunEncoding ∧ overrunEncoding.busy = true ∧ overrunEncoding.complete.phase = .error := by
  refine ⟨⟨{ failed with events := [hostWrite Config.reference 0x04 (encode .estart)] }, _,
      witness_inv_of_events _ _ witness_inv_failed, rfl, rfl, (by intro h; cases h), rfl⟩,
    ⟨{ failed with events := [.reset] }, _, witness_inv_of_events _ _ witness_inv_failed, rfl, rfl,
      (by intro h; cases h), rfl⟩,
    ⟨witness_inv_reset, rfl, _, rfl, rfl⟩, ⟨witness_inv_ready, rfl, _, rfl, rfl⟩,
    ⟨witness_inv_overrunBuilding, rfl, rfl⟩, witness_inv_overrunEncoding, rfl, rfl⟩

theorem witness_NopChangesNothing :
    (opField 0x00000001#32 = 0x00#8 ∧ 0x00000001#32 ≠ 0x00000000#32) ∧
      (State.reset.busy = false ∧ State.reset.phase ≠ .error) ∧ (failed.busy = false ∧ failed.phase = .error) ∧
      building.busy = true ∧ building.ovrp = false := by
  exact ⟨by decide, ⟨rfl, by decide⟩, ⟨rfl, rfl⟩, rfl, rfl⟩

/-- COUNT with TOTAL = 0xFFFFFFFF (spec 95, 2.2). -/
def fullTotal : State :=
  { State.reset with
    fc := setFreq (setFreq clearedFreq 0x00#8 0x80000000#32) 0x01#8 0x7FFFFFFF#32, total := 0xFFFFFFFF#32 }

theorem witness_CntCountsOneSymbol :
    (State.reset.busy = false ∧ State.reset.phase = .count ∧ State.reset.total ≠ 0xFFFFFFFF#32 ∧ CountsOk State.reset) ∧
      (0xFF#8 : Sym) ≠ 0x00#8 ∧ (ready.busy = false ∧ ready.phase = .ready) ∧
      (fullTotal.busy = false ∧ fullTotal.phase = .count ∧ fullTotal.total = 0xFFFFFFFF#32) ∧
      (failed.busy = false ∧ failed.phase = .error) ∧ building.busy = true :=
  ⟨⟨rfl, rfl, by decide, witness_inv_reset.counts⟩, by decide, ⟨rfl, rfl⟩, ⟨rfl, rfl, rfl⟩, ⟨rfl, rfl⟩, rfl⟩

theorem witness_BuildIssuesAndCompletes :
    (counted.busy = false ∧ counted.phase = .count ∧ counted.nsym ≠ 0) ∧
      (ready.busy = false ∧ ready.phase = .ready) ∧
      (State.reset.busy = false ∧ State.reset.phase = .count ∧ State.reset.nsym = 0) ∧
      (building.busy = true ∧ building.inflight = .build) ∧ overrunBuilding.ovrp = true ∧ abcReady.fc = abcCounts := by
  have h0 : State.reset.nsym = 0 := by decide +kernel
  exact ⟨⟨rfl, rfl, by rw [nsym_counted]; decide⟩, ⟨rfl, rfl⟩, ⟨rfl, rfl, h0⟩, ⟨rfl, rfl⟩, rfl, rfl⟩

theorem witness_EstartStartsAPass :
    (ready.busy = false ∧ (ready.phase = .ready ∨ ready.phase = .error ∧ ready.tvalid = true)) ∧
      (failed.busy = false ∧ (failed.phase = .ready ∨ failed.phase = .error ∧ failed.tvalid = true)) ∧
      (State.reset.busy = false ∧ State.reset.phase = .count) ∧
      (failedEmpty.busy = false ∧ failedEmpty.phase = .error ∧ failedEmpty.tvalid = false) ∧ encoding.busy = true :=
  ⟨⟨rfl, .inl rfl⟩, ⟨rfl, .inr ⟨rfl, rfl⟩⟩, ⟨rfl, rfl⟩, ⟨rfl, rfl, rfl⟩, rfl⟩

/-- READY with SYMCNT = 0xFFFFFFFF (spec 95, 2.4). -/
def fullStat : State := { ready with symcnt := 0xFFFFFFFF#32 }

theorem len_z_ne : (entryOf ready.ct 0x7A#8).len ≠ 0#8 := by
  show (entryOf (builtTable zCounts) 0x7A#8).len ≠ 0#8
  rw [len_z]; decide

theorem witness_EncIssues :
    (ready.busy = false ∧ ready.phase = .ready ∧ (entryOf ready.ct 0x7A#8).len ≠ 0#8 ∧ ready.symcnt ≠ 0xFFFFFFFF#32) ∧
      (counted.busy = false ∧ counted.phase = .count) ∧ (entryOf ready.ct 0x64#8).len = 0#8 ∧
      (fullStat.busy = false ∧ fullStat.phase = .ready ∧ (entryOf fullStat.ct 0x7A#8).len ≠ 0#8 ∧
        fullStat.symcnt = 0xFFFFFFFF#32) ∧
      encoding.cfg.wf = true ∧ encoding.busy = true ∧ encoding.inflight = .enc 0x7A#8 ∧ encoding.obuf = [] := by
  have hd : (entryOf ready.ct 0x64#8).len = 0#8 := by decide +kernel
  exact ⟨⟨rfl, rfl, len_z_ne, by show (0#32 : Word) ≠ _; decide⟩, ⟨rfl, rfl⟩, hd, ⟨rfl, rfl, len_z_ne, rfl⟩, rfl, rfl,
    rfl, rfl⟩

theorem witness_inv_encoding : StateInv encoding where
  cfg_wf := by decide
  long := ⟨by show true = true ↔ Inflight.enc 0x7A#8 ≠ .none; decide, (by intro _ h; cases h), (by intro h; cases h),
    (by intro x h; cases h; exact ⟨rfl, rfl, len_z_ne⟩), Nat.zero_le _⟩
  counts := counts_of_counted _ rfl rfl
  count_phase := by intro h; cases h
  err := by show ErrCode.none ≠ .none ↔ Phase.ready = .error ∨ (true = true ∧ false = true); decide
  ovrp_busy := by intro h; cases h
  ready_table := fun _ => rfl
  build_nonempty := by intro h; cases h
  enc_stat := by intro x _; show (0#32 : Word) ≠ _; decide
  table_built := fun _ => ⟨rfl, rfl, by show counted.nsym ≠ 0; rw [nsym_counted]; decide⟩
  no_table := by intro h; cases h
  bits_bound := by decide

theorem hold_encoding : encoding.hold = false := by decide +kernel

theorem witness_EncCommitAppendsTheCode :
    encoding.busy = true ∧ encoding.inflight = .enc 0x7A#8 ∧ encoding.hold = false ∧ StateInv encoding ∧
      0 < (entryOf encoding.ct 0x7A#8).len.toNat :=
  ⟨rfl, rfl, hold_encoding, witness_inv_encoding, by
    show 0 < (entryOf (builtTable zCounts) 0x7A#8).len.toNat; rw [len_z]; decide⟩

theorem witness_CommandFrames :
    (∃ t, exec (.cnt 0x61#8) counted = .next t) ∧ (∃ t, exec .build counted = .next t) ∧
      (∃ t, exec .estart ready = .next t) ∧ (∃ t, exec (.enc 0x7A#8) ready = .next t) ∧
      (∃ t, exec .nop building = .next t) ∧ (∃ t, exec .clr building = .next t) ∧ building.busy = true :=
  ⟨⟨_, rfl⟩, ⟨_, rfl⟩, ⟨_, rfl⟩, ⟨_, rfl⟩, ⟨_, rfl⟩, ⟨_, rfl⟩, rfl⟩

theorem witness_ErrorCodeNumbers :
    ∃ t, issue 0x06000000#32 State.reset = .next t ∧ t.errCode ≠ .none ∧ t.errCode ≠ State.reset.errCode :=
  ⟨_, rfl, (by intro h; cases h), by intro h; cases h⟩

theorem engine_building : engineStep building = .next building.complete := by rfl

theorem engine_encoding : engineStep encoding = .next encoding.complete := by
  simp [engineStep, State.engineEnabled, hold_encoding, show encoding.busy = true from rfl]

theorem witness_CompleteEndsTheLongCommand :
    (∃ t, engineStep building = .next t ∧ building.inflight = .build) ∧
      (∃ t, engineStep overrunBuilding = .next t ∧ overrunBuilding.ovrp = true) ∧
      ∃ t, engineStep encoding = .next t ∧ encoding.inflight = .enc 0x7A#8 :=
  ⟨⟨_, engine_building, rfl⟩, ⟨_, rfl, rfl⟩, _, engine_encoding, rfl⟩

theorem witness_LongCommandEndsOnlyAtCompletion :
    building.busy = true ∧ ∃ t, Machine.step building = .next t ∧ t.busy = false := ⟨rfl, _, rfl, rfl⟩

/-- The state before a host access. -/
def withEvent (s : State) (e : Event) : State := { s with events := e :: s.events }

theorem witness_BusyShowsNoResult :
    ∃ t, (withEvent building (hostWrite Config.reference 0x04 (encode (.enc 0x62#8)))).busy = true ∧
      Machine.step (withEvent building (hostWrite Config.reference 0x04 (encode (.enc 0x62#8)))) = .next t ∧
      (withEvent building (hostWrite Config.reference 0x04 (encode (.enc 0x62#8)))).nextIsEngine = false ∧
      (withEvent building (hostWrite Config.reference 0x04 (encode (.enc 0x62#8)))).nextIsReset = false ∧
      (withEvent building (hostWrite Config.reference 0x04 (encode (.enc 0x62#8)))).nextCommand ≠ some (encode .clr) ∧
      (withEvent building (hostWrite Config.reference 0x04 (encode (.enc 0x62#8)))).nextRead ≠ some 0x38 ∧
      (∀ v, (withEvent building (hostWrite Config.reference 0x04 (encode (.enc 0x62#8)))).nextWrite ≠ some (0x18, v)) ∧
      regValue .err t ≠ regValue .err building := by
  refine ⟨_, rfl, rfl, rfl, rfl, by decide, by decide, ?_, by decide +kernel⟩
  intro v h; cases h

/-- `held` before a read of STATUS. -/
def heldRead : State := { held with events := [hostRead held.cfg 0x08] }

theorem fifo_held : held.obuf.length = 255 := List.length_replicate ..

theorem witness_HoldEndsOnlyByDrainOrClear :
    heldRead.busy = true ∧ heldRead.inflight = .enc 0x7A#8 ∧
      heldRead.cfg.obufDepth - heldRead.obuf.length < (entryOf heldRead.ct 0x7A#8).len.toNat ∧
      (∃ t, Machine.step heldRead = .next t) ∧ heldRead.nextRead ≠ some 0x38 ∧
      heldRead.nextCommand ≠ some (encode .clr) ∧ heldRead.nextIsReset = false := by
  refine ⟨rfl, rfl, ?_, ⟨heldRead.dropEvent.logRead 0x08 (regValue .status heldRead.dropEvent), ?_⟩, by decide +kernel,
    by decide +kernel, by decide +kernel⟩
  rotate_left
  · simp [Machine.step, heldRead, hostRead, eventStep, hostStep, windowOffset, AccessWidth.numBits, busRead, regAt,
      State.dropEvent]
  rw [show heldRead.obuf.length = 255 from fifo_held, show (entryOf heldRead.ct 0x7A#8).len = 1#8 from len_z]
  decide

/-- `held` before 255 reads of OUT_BIT. -/
def heldDrain : State := { held with events := List.replicate held.obuf.length (hostRead held.cfg 0x38) ++ [.engine] }

theorem witness_DrainLiftsTheHold :
    heldDrain.cfg.wf = true ∧ heldDrain.busy = true ∧ heldDrain.inflight ≠ .none ∧
      heldDrain.events = List.replicate heldDrain.obuf.length (hostRead heldDrain.cfg 0x38) ++ [.engine] ∧
      heldDrain.hold = true :=
  ⟨rfl, rfl, (by intro h; cases h), rfl, by decide +kernel⟩

theorem witness_StepRunsTheDecodedCommand :
    ((withEvent ready (hostWrite ready.cfg 0x04 0x0500007A#32)).events
        = hostWrite (withEvent ready (hostWrite ready.cfg 0x04 0x0500007A#32)).cfg 0x04 0x0500007A#32 :: [] ∧
        decode 0x0500007A#32 = .ok (.enc 0x7A#8)) ∧
      ((withEvent ready (hostWrite ready.cfg 0x04 0x06000000#32)).events
          = hostWrite (withEvent ready (hostWrite ready.cfg 0x04 0x06000000#32)).cfg 0x04 0x06000000#32 :: [] ∧
        decode 0x06000000#32 = .error .unassignedOpcode) ∧
      decodeTableWord 32 0x0500007A = some (.enc 0x7A#8) ∧
      (withEvent building .engine).events = [.engine] ∧ building.events = [] ∧ building.engineEnabled = true :=
  ⟨⟨rfl, by decide⟩, ⟨rfl, by decide⟩, by decide, rfl, rfl, rfl⟩

theorem witness_IllFormedAccessesAreRefused :
    State.reset.cfg.regBase ≤ 0xFC ∧ accessWf (0xFC - State.reset.cfg.regBase) AccessWidth.word.numBits = true ∧
      refusalOf (hostStep { addr := 0xFE, width := .word, op := .read } State.reset) = some .misalignedAccess ∧
      refusalOf (hostStep { addr := 0x100, width := .word, op := .read } State.reset) = some .outsideWindow ∧
      refusalOf (hostStep { addr := 0x00, width := .half, op := .read } State.reset) = some .narrowAccess :=
  ⟨by decide, by decide, by decide +kernel, by decide +kernel, by decide +kernel⟩

theorem witness_UnmappedAndReadOnlyAccesses :
    (0x60 ≤ 0x60 ∧ 0x60 ≤ 0xFC) ∧ (0x60 ≤ 0xFC ∧ 0xFC ≤ 0xFC) ∧ (0x10 : Nat) ≠ 0x04 ∧ (0x10 : Nat) ≠ 0x18 := by decide

theorem witness_BusReadReturnsAndPops :
    (∃ b rest, held.obuf = b :: rest) ∧ State.reset.obuf = [] ∧ (0x34 : Nat) ≠ 0x38 := ⟨⟨false, _, rfl⟩, rfl, by decide⟩

theorem witness_BusWriteEffects :
    (0x10 : Nat) ≠ 0x04 ∧ (0x10 : Nat) ≠ 0x18 ∧
      (withEvent building (hostWrite building.cfg 0x18 0x1FF#32)).events
        = hostWrite (withEvent building (hostWrite building.cfg 0x18 0x1FF#32)).cfg 0x18 0x1FF#32 :: [] :=
  ⟨by decide, by decide, rfl⟩

theorem witness_RegisterMapFields :
    (held.cfg.wf = true ∧ held.obuf.length ≤ held.cfg.obufDepth ∧ ∃ b rest, held.obuf = b :: rest) ∧
      State.reset.obuf = [] ∧ ((0 : Nat) < 8 ∧ (0 : Nat) < 32) ∧ (7 : Nat) < 8 ∧ (31 : Nat) < 32 :=
  ⟨⟨rfl, witness_inv_held.long.fifo_bound, false, _, rfl⟩, rfl, by decide⟩

theorem witness_ReadsAreIdempotent : (0x34 : Nat) ≠ 0x38 ∧ (0x3C : Nat) ≠ 0x38 := by decide

theorem witness_ResetLeavesTheTableOfR30 : (withEvent held .reset).events = .reset :: [] ∧ Reg.total ≠ .id ∧ Reg.total ≠ .param :=
  ⟨rfl, by decide⟩

theorem witness_ResetMeetsTheInvariants : Config.wf { obufDepth := 255, regBase := 0x4000 } = true := by decide

theorem witness_StepKeepsTheInvariants :
    (StateInv building ∧ ∃ t, Machine.step building = .next t) ∧
      StateInv (withEvent ready (hostWrite ready.cfg 0x04 (encode (.enc 0x7A#8)))) ∧
      ∃ t, Machine.step (withEvent ready (hostWrite ready.cfg 0x04 (encode (.enc 0x7A#8)))) = .next t :=
  ⟨⟨witness_inv_building, _, rfl⟩, witness_inv_of_events _ _ witness_inv_ready, _, rfl⟩

/-! ### Reachable states -/

theorem reachable_run (k : Nat) : ∀ s t, Reachable s → core.run k s = .next t → Reachable t := by
  induction k with
  | zero => intro s t hs h; cases h; exact hs
  | succ k ih =>
    intro s t hs h
    obtain ⟨s', hstep, hrun⟩ := core_run_succ_next h
    exact ih s' t (.step s s' hs hstep) hrun

/-- The state after k steps from reset with the events es is reachable; `f` tells what holds of it. -/
theorem reachable_with {β : Type} (es : List Event) (k : Nat) (f : State → β) (b : β)
    (h : (got (core.run k (initial Config.reference es))).map f = some b) : ∃ s, Reachable s ∧ f s = b := by
  cases hr : core.run k (initial Config.reference es) with
  | next t =>
    refine ⟨t, reachable_run k _ t (.start _ (by decide) es) hr, ?_⟩
    rw [hr] at h
    exact Option.some.inj h
  | fault e => simp [hr, got] at h
  | refused e => simp [hr, got] at h

/-- The host's write of a command. -/
def cmd (i : Instr) : Event := hostWrite Config.reference 0x04 (encode i)

theorem witness_ReachableLongCommandState :
    (∃ s, Reachable s ∧ (s.busy, s.inflight) = (true, .build)) ∧
      ∃ s, Reachable s ∧ (s.busy, s.inflight, s.obuf.length) = (true, .enc 0x7A#8, 1) :=
  ⟨reachable_with [cmd (.cnt 0x7A#8), cmd .build] 2 _ _ (by decide +kernel),
    reachable_with [cmd (.cnt 0x7A#8), cmd .build, .engine, cmd (.enc 0x7A#8), .engine, cmd (.enc 0x7A#8)] 6 _ _
      (by decide +kernel)⟩

theorem witness_ReachableTotalIsTheSum : ∃ s, Reachable s ∧ (s.total, freqOf s.fc 0x7A#8) = (2#32, 2#32) :=
  reachable_with [cmd (.cnt 0x7A#8), cmd (.cnt 0x7A#8)] 2 _ _ (by decide +kernel)

theorem witness_ReachableCountPhase :
    (∃ s, Reachable s ∧ (s.phase, s.total, (got (Machine.step s)).map State.total) = (.count, 0#32, some 1#32)) ∧
      ∃ s, Reachable s ∧ (s.tvalid, (got (Machine.step s)).map State.tvalid) = (true, some true) :=
  ⟨reachable_with [cmd .nop, cmd (.cnt 0x7A#8)] 1 _ _ (by decide +kernel),
    reachable_with [cmd (.cnt 0x7A#8), cmd .build, .engine, cmd .estart] 3 _ _ (by decide +kernel)⟩

theorem witness_ReachableValidTable : ∃ s, Reachable s ∧ s.tvalid = true :=
  reachable_with [cmd (.cnt 0x7A#8), cmd .build, .engine] 3 _ _ (by decide +kernel)

theorem witness_ReachableErrorCode :
    (∃ s, Reachable s ∧ (s.phase, s.errCode) = (.error, .emptyInput)) ∧
      ∃ s, Reachable s ∧ (s.phase, s.busy, s.ovrp, s.errCode) = (.count, true, true, .cmdOverrun) :=
  ⟨reachable_with [cmd .build] 1 _ _ (by decide +kernel),
    reachable_with [cmd (.cnt 0x7A#8), cmd .build, cmd .estart] 3 _ _ (by decide +kernel)⟩

/-- READY before a CLR. -/
def readyClr : State := { ready with events := [cmd .clr] }

theorem table_z_ne_cleared : builtTable zCounts ≠ clearedTable := by
  intro h
  have h1 := len_z
  rw [h] at h1; simp [CtEntry.empty] at h1

theorem witness_CodeTableWriters :
    (∃ t, Machine.step building = .next t ∧ t.ct ≠ building.ct) ∧
      StateInv readyClr ∧ readyClr.tvalid = true ∧ ∃ t, Machine.step readyClr = .next t ∧ t.ct ≠ readyClr.ct :=
  ⟨⟨_, rfl, table_z_ne_cleared⟩, witness_inv_of_events _ _ witness_inv_ready, rfl, _, rfl, Ne.symm table_z_ne_cleared⟩

theorem witness_TabSelWriters :
    ∃ t, Machine.step (withEvent ready (hostWrite ready.cfg 0x18 0x41#32)) = .next t ∧ t.tabSel ≠ ready.tabSel :=
  ⟨_, rfl, by decide⟩

/-! ### The merge engine and the table -/

theorem witness_TieBreakOrder :
    (readNode (loadLeaves abcCounts) (leafId 0x63#8)).freq.toNat < (readNode (loadLeaves abcCounts) (leafId 0x62#8)).freq.toNat ∧
      ((readNode (loadLeaves abcCounts) (leafId 0x00#8)).freq = (readNode (loadLeaves abcCounts) (leafId 0xFF#8)).freq ∧
        (0x00#8 : Sym).toNat < (0xFF#8 : Sym).toNat) ∧
      (readNode (buildTree abcCounts).nm (leafId 0x61#8)).freq = (readNode (buildTree abcCounts).nm (internalId 0)).freq ∧
      (readNode (loadLeaves abcCounts) (internalId 0)).freq = (readNode (loadLeaves abcCounts) (internalId 254)).freq := by
  decide +kernel

theorem present_abc : presentSyms abcCounts = [0x61#8, 0x62#8, 0x63#8] := by decide +kernel

theorem present_z : presentSyms zCounts = [0x7A#8] := by decide +kernel

theorem work_abc : (mergeStart abcCounts).work = [0x61#9, 0x62#9, 0x63#9] := by decide +kernel

theorem witness_ExtractionTakesTheLeastKey : (mergeLoop 0 (mergeStart abcCounts)).work ≠ [] := by
  show (mergeStart abcCounts).work ≠ []
  rw [work_abc]; decide

theorem witness_MergeCounts : 1 ≤ (presentSyms abcCounts).length ∧ 1 ≤ (presentSyms zCounts).length ∧
    presentSyms zCounts = [0x7A#8] := by
  rw [present_abc, present_z]; decide

theorem freqSum_abc : freqSum abcCounts = 6 := by decide +kernel

/-- The largest sum the counters can hold (R57, R64). -/
theorem witness_FrequencyConservation :
    (freqSum abcCounts < 2 ^ 32 ∧ 1 ≤ (presentSyms abcCounts).length ∧ 256#9 ∈ (buildTree abcCounts).internalIds) ∧
      freqSum fullTotal.fc = 2 ^ 32 - 1 := by
  rw [freqSum_abc, present_abc]
  refine ⟨⟨by decide, by decide, by decide +kernel⟩, by decide +kernel⟩

theorem witness_StrictBinaryTree : (buildTree abcCounts).root = some 257#9 ∧ (buildTree zCounts).root = some 0x7A#9 := by
  decide +kernel

theorem witness_HeapLayoutIsNotObservable :
    [0x63#9, 0x61#9, 0x62#9].Perm (mergeLoop 0 (mergeStart abcCounts)).work := by
  show List.Perm _ (mergeStart abcCounts).work
  rw [work_abc]; decide

theorem witness_BuildIsDeterministic :
    building.fc = overrunBuilding.fc ∧ building.inflight = .build ∧ overrunBuilding.inflight = .build ∧
      (∃ t, engineStep building = .next t) ∧ ∃ t, engineStep overrunBuilding = .next t :=
  ⟨rfl, rfl, rfl, ⟨_, rfl⟩, _, rfl⟩

theorem freq_abc : freqOf abcCounts 0x61#8 = 3#32 ∧ freqOf abcCounts 0x62#8 = 2#32 ∧ freqOf abcCounts 0x63#8 = 1#32 := by
  decide +kernel

theorem witness_CodesArePathsToLeaves :
    (2 ≤ (presentSyms abcCounts).length ∧ (buildTree abcCounts).root = some 257#9 ∧ freqOf abcCounts 0x63#8 ≠ 0#32) ∧
      presentSyms zCounts = [0x7A#8] := by
  rw [present_abc, present_z, freq_abc.2.2]
  exact ⟨⟨by decide, witness_StrictBinaryTree.1, by decide⟩, rfl⟩

theorem witness_TableCoverage : freqOf abcCounts 0x61#8 ≠ 0#32 ∧ freqOf abcCounts 0x64#8 = 0#32 ∧
    (entryOf (builtTable abcCounts) 0x61#8).len.toNat ≤ 1 := by decide +kernel

theorem witness_CodeLengthBounds :
    (freqOf abcCounts 0x61#8 ≠ 0#32 ∧ 2 ≤ (presentSyms abcCounts).length) ∧
      freqOf zCounts 0x7A#8 ≠ 0#32 ∧ (presentSyms zCounts).length = 1 := by
  rw [present_abc, present_z, freq_abc.1]
  exact ⟨⟨by decide, by decide⟩, by decide +kernel, rfl⟩

theorem witness_TableIsPrefixFree :
    freqOf abcCounts 0x62#8 ≠ 0#32 ∧ freqOf abcCounts 0x63#8 ≠ 0#32 ∧ (0x62#8 : Sym) ≠ 0x63#8 := by
  rw [freq_abc.2.1, freq_abc.2.2]; decide

theorem witness_KraftSum : 1 ≤ (presentSyms abcCounts).length ∧ (presentSyms zCounts).length = 1 := by
  rw [present_abc, present_z]; decide

theorem witness_FrequentSymbolsHaveShorterCodes :
    freqSum abcCounts < 2 ^ 32 ∧ freqOf abcCounts 0x62#8 ≠ 0#32 ∧
      (freqOf abcCounts 0x62#8).toNat < (freqOf abcCounts 0x61#8).toNat := by
  rw [freqSum_abc, freq_abc.1, freq_abc.2.1]; decide

/-! ### Streams -/

theorem witness_CountsAreOccurrences :
    State.reset.busy = false ∧ State.reset.phase = .count ∧ State.reset.fc = clearedFreq ∧ State.reset.total = 0#32 ∧
      [0x61#8, 0x62#8, 0x61#8].length < 2 ^ 32 ∧ [0x62#8, 0x61#8, 0x61#8].Perm [0x61#8, 0x62#8, (0x61#8 : Sym)] :=
  ⟨rfl, rfl, rfl, rfl, by decide, by decide⟩

theorem witness_EncodingPassOutput :
    (StateInv building ∧ building.inflight = .build ∧ ∃ t, engineStep building = .next t) ∧
      StateInv encoding ∧ encoding.tvalid = true ∧ PassOk encoding [] [] ∧
      (∃ t, Machine.step encoding = .next t) ∧ (encoding.nextCommand = some (encode .estart) → encoding.busy = true) ∧
      encoding.nextCommand ≠ some (encode .clr) ∧ encoding.nextIsReset = false ∧ encoding.encodedNext = [0x7A#8] := by
  have hs : Machine.step encoding = .next encoding.complete := by
    show idleStep encoding = _
    simp [idleStep, State.engineEnabled, hold_encoding, show encoding.busy = true from rfl]
  refine ⟨⟨witness_inv_building, rfl, _, engine_building⟩, witness_inv_encoding, rfl, ⟨rfl, rfl, rfl⟩, ⟨_, hs⟩,
    fun _ => rfl, by decide, rfl, ?_⟩
  simp [State.encodedNext, State.engineEnabled, hold_encoding, show encoding.busy = true from rfl,
    show encoding.nextIsEngine = true from rfl, show encoding.inflight = .enc 0x7A#8 from rfl]

theorem witness_FailedPassKeepsItsOutput :
    (ready.phase ≠ .error ∧ ∃ t, issue 0x06000000#32 ready = .next t ∧ t.phase = .error) ∧
      (failed.busy = false ∧ failed.phase = .error ∧ failed.tvalid = true ∧ ∃ t, exec .estart failed = .next t) ∧
      ∃ t, exec .clr held = .next t :=
  ⟨⟨(by intro h; cases h), _, rfl, rfl⟩, ⟨rfl, rfl, rfl, _, rfl⟩, _, rfl⟩

theorem witness_RoundTrip : (∀ x ∈ [0x61#8, 0x63#8, 0x61#8], freqOf abcCounts x ≠ 0#32) ∧
    [0x61#8, 0x63#8, 0x61#8] = 0x61#8 :: [0x63#8, (0x61#8 : Sym)] := by
  refine ⟨?_, rfl⟩
  intro x hx
  simp only [List.mem_cons, List.not_mem_nil, or_false] at hx
  rcases hx with rfl | rfl | rfl <;> simp [freq_abc]

end Sys2Proof.Tests
end

section
/-! The table BUILD commits: ROOT_FREQ is the sum of the counters, and exactly the present symbols have a code. -/

namespace Sys2Proof.Machine

/-! ### ROOT_FREQ -/

theorem CodeTree.weight_node (fc : FreqTable) (l r : CodeTree) :
    (CodeTree.node l r).weight fc = l.weight fc + r.weight fc := by
  simp [CodeTree.weight, CodeTree.leaves]

/-- R64 in 32-bit arithmetic: a node's frequency is the sum of the counters below it. -/
theorem MergeOk.freq_eq_weight {fc : FreqTable} {m : MergeState} (h : MergeOk fc m) {id : NodeId} {t : CodeTree}
    (hr : Represents m.nm id t) (hid : id.toNat < 256 + m.k) :
    (readNode m.nm id).freq = BitVec.ofNat 32 (t.weight fc) := by
  induction hr with
  | leaf x => simp [h.leaf_freq, CodeTree.weight, CodeTree.leaves]
  | node id l r h256 _ _ ihl ihr =>
    obtain ⟨hleft, hright⟩ := h.down id h256 hid
    rw [h.node_freq id h256 hid, ihl (by omega), ihr (by omega), ← BitVec.ofNat_add, CodeTree.weight_node]

/-- A tree whose leaves are the present symbols weighs the sum of the counters. -/
theorem CodeTree.weight_eq_freqSum {fc : FreqTable} {t : CodeTree} (h : t.leaves.Perm (presentSyms fc)) :
    t.weight fc = freqSum fc := by
  rw [freqSum_eq_sum_present, CodeTree.weight]
  exact (h.map _).sum_eq

theorem builtRootFreq_eq_freqSum {fc : FreqTable} (h : presentSyms fc ≠ []) :
    builtRootFreq fc = BitVec.ofNat 32 (freqSum fc) := by
  obtain ⟨r, t, hwork, hrep, hleaves, -⟩ := buildTree_spec fc h
  have hok := mergeOk_build fc
  have hroot : (buildTree fc).root = some r := by simp [MergeState.root, hwork]
  have hid := hok.work_lt r (by simp [hwork])
  simp only [builtRootFreq, hroot]
  rw [hok.freq_eq_weight hrep hid, CodeTree.weight_eq_freqSum hleaves]

/-! ### Which symbols have a code -/

theorem CodeTree.exists_code_of_mem_leaves {t : CodeTree} {x : Sym} (p : List Bool) (h : x ∈ t.leaves) :
    ∃ q, (x, q) ∈ t.codes p := by
  rw [← t.codes_fst p, List.mem_map] at h
  obtain ⟨⟨y, q⟩, hmem, rfl⟩ := h
  exact ⟨q, hmem⟩

/-- Below an inner node every path has an edge (R73). -/
theorem CodeTree.length_pos_of_mem_codes_node {l r : CodeTree} {p : List Bool} {c : Sym × List Bool}
    (h : c ∈ (CodeTree.node l r).codes p) : 1 ≤ c.2.length := by
  have below : ∀ (t : CodeTree) (b : Bool), c ∈ t.codes (p ++ [b]) → 1 ≤ c.2.length := fun t b hc => by
    have hlen := (t.codes_prefix _ c hc).1.length_le
    rw [List.length_append, List.length_singleton] at hlen
    omega
  exact (List.mem_append.mp h).elim (below l false) (below r true)

theorem CtEntry.ofBits_len_ne_zero {p : List Bool} (hpos : 1 ≤ p.length) (hle : p.length ≤ 255) :
    (CtEntry.ofBits p).len ≠ 0#8 := by
  intro h
  have hlen := CtEntry.ofBits_len p hle
  rw [h, BitVec.toNat_zero] at hlen
  omega

/-- R72: the table has a code for exactly the present symbols. -/
theorem builtTable_len_ne_zero_iff {fc : FreqTable} (h : presentSyms fc ≠ []) (x : Sym) :
    (entryOf (builtTable fc) x).len ≠ 0#8 ↔ freqOf fc x ≠ 0#32 := by
  obtain ⟨r, t, -, -, hleaves, hdepth, hnode, hleaf, habsent⟩ := builtTable_entry fc h
  rw [← mem_presentSyms]
  constructor
  · intro hlen
    by_contra hx
    exact hlen (by rw [habsent x hx]; rfl)
  · intro hx
    have hx : x ∈ t.leaves := hleaves.symm.subset hx
    cases t with
    | leaf y =>
      obtain rfl : x = y := by simpa [CodeTree.leaves] using hx
      rw [hleaf x rfl]
      exact CtEntry.ofBits_len_ne_zero (by simp) (by simp)
    | node l l' =>
      obtain ⟨q, hq⟩ := CodeTree.exists_code_of_mem_leaves [] hx
      have hle := ((CodeTree.node l l').codes_prefix [] _ hq).2
      simp only [List.length_nil, Nat.zero_add] at hle
      rw [hnode l l' rfl x q hq]
      exact CtEntry.ofBits_len_ne_zero (CodeTree.length_pos_of_mem_codes_node hq) (by omega)

end Sys2Proof.Machine
end

section
/-! Every step keeps `StateInv`: one lemma per update of the state, then one case analysis of `StepEffect`. -/

namespace Sys2Proof.Machine

/-! ### Idle states: no long command in flight -/

theorem LongCommandOk.of_idle {s : State} (hb : s.busy = false) (hi : s.inflight = .none)
    (hf : s.obuf.length ≤ s.cfg.obufDepth) : LongCommandOk s where
  busy_iff := by simp [hb, hi]
  busy_phase := by simp [hb]
  build_phase := by simp [hi]
  enc_ready := by simp [hi]
  fifo_bound := hf

theorem StateInv.inflight_of_idle {s : State} (h : StateInv s) (hb : s.busy = false) : s.inflight = .none := by
  by_contra hi
  simp [h.long.busy_iff.mpr hi] at hb

theorem StateInv.ovrp_of_idle {s : State} (h : StateInv s) (hb : s.busy = false) : s.ovrp = false := by
  by_contra ho
  simp [h.ovrp_busy (by simpa using ho)] at hb

/-- Outside ERROR and with nothing in flight no error is recorded (R25). -/
theorem StateInv.errCode_of_idle {s : State} (h : StateInv s) (hb : s.busy = false) (hp : s.phase ≠ .error) :
    s.errCode = .none := by
  have herr := h.err
  simp only [ErrOk, hb, hp] at herr
  simpa using herr

theorem CountsOk.of_total_eq {s : State} (h : s.total.toNat = freqSum s.fc) : CountsOk s where
  total_eq := h
  freq_le := fun x => h ▸ freqOf_le_freqSum s.fc x

/-! ### Reset and CLR -/

theorem StateInv.initial {c : Config} (hc : c.wf = true) (es : List Event) : StateInv (initial c es) where
  cfg_wf := hc
  long := .of_idle rfl rfl (Nat.zero_le _)
  counts := .of_total_eq freqSum_cleared.symm
  count_phase := fun _ => ⟨rfl, rfl, rfl, rfl, rfl⟩
  err := by simp [ErrOk, Machine.initial, State.reset]
  ovrp_busy := nofun
  ready_table := nofun
  build_nonempty := nofun
  enc_stat := nofun
  table_built := nofun
  no_table := fun _ => ⟨rfl, rfl⟩
  bits_bound := by simp [Machine.initial, State.reset]

/-- The invariants do not speak of TAB_SEL, ERR.SYM, ERR.OP, the pending events or the values the host has read. -/
theorem StateInv.congr {s : State} (h : StateInv s) (sym op : BitVec 8) (sel : Sym) (es : List Event)
    (log : List ReadResult) :
    StateInv { s with errSym := sym, errOp := op, tabSel := sel, events := es, readLog := log } :=
  { h with
    long := { h.long with }
    counts := { h.counts with } }

theorem StateInv.dropEvent {s : State} (h : StateInv s) : StateInv s.dropEvent :=
  h.congr s.errSym s.errOp s.tabSel s.events.tail s.readLog

theorem StateInv.setTabSel {s : State} (h : StateInv s) (v : Word) : StateInv (s.setTabSel v) :=
  h.congr s.errSym s.errOp (v.extractLsb' 0 8) s.events s.readLog

theorem StateInv.logRead {s : State} (h : StateInv s) (off : Nat) (v : Word) : StateInv (s.logRead off v) :=
  h.congr s.errSym s.errOp s.tabSel s.events _

theorem StateInv.applyReset {s : State} (h : StateInv s) : StateInv s.applyReset :=
  (StateInv.initial h.cfg_wf s.events).congr 0#8 0#8 0#8 s.events s.readLog

theorem StateInv.cleared {s : State} (h : StateInv s) : StateInv s.cleared :=
  (StateInv.initial h.cfg_wf s.events).congr 0#8 0#8 s.tabSel s.events s.readLog

/-! ### Reads -/

theorem StateInv.popBit {s : State} (h : StateInv s) : StateInv s.popBit :=
  { h with
    long := { h.long with
      fifo_bound := by
        have := h.long.fifo_bound
        simp only [State.popBit_obuf, State.popBit_cfg, List.length_tail]
        omega }
    counts := { h.counts with }
    count_phase := fun hp => by
      obtain ⟨ht, hs, hb, ho, hr⟩ := h.count_phase hp
      exact ⟨ht, hs, hb, by simp [ho], hr⟩ }

theorem StateInv.busRead {s : State} (h : StateInv s) (off : Nat) : StateInv (busRead off s) := by
  by_cases hoff : off = 0x38
  · subst hoff
    exact (h.logRead _ _).popBit
  · rw [busRead_other off s hoff]
    exact h.logRead _ _

/-! ### The effects of a CMD write -/

theorem StateInv.overrun {s : State} (h : StateInv s) (w : Word) (hb : s.busy = true) :
    StateInv { s.recordErr .cmdOverrun w with ovrp := true } :=
  { h with
    long := { h.long with }
    counts := { h.counts with }
    err := by simp [ErrOk, hb]
    ovrp_busy := fun _ => hb }

theorem StateInv.raise {s : State} (h : StateInv s) {e : ErrCode} (he : e ≠ .none) (w : Word) (hb : s.busy = false) :
    StateInv (s.raise e w) :=
  { h with
    long := .of_idle hb (h.inflight_of_idle hb) h.long.fifo_bound
    counts := { h.counts with }
    count_phase := nofun
    err := by simp [ErrOk, he]
    ready_table := nofun }

theorem StateInv.countSymbol {s : State} (h : StateInv s) (x : Sym) (hb : s.busy = false) (hp : s.phase = .count)
    (ht : s.total ≠ 0xFFFFFFFF#32) : StateInv (s.countSymbol x) := by
  have hi := h.inflight_of_idle hb
  have htable := (h.count_phase hp).1
  have htotal : s.total.toNat + 1 < 2 ^ 32 := by bv_omega
  have hfreq := h.counts.freq_le x
  have hsum := freqSum_setFreq s.fc x (freqOf s.fc x + 1#32)
  exact
    { h with
      long := .of_idle hb hi h.long.fifo_bound
      counts := .of_total_eq (by
        have := h.counts.total_eq
        have htotal' : (s.total + 1#32).toNat = s.total.toNat + 1 := by bv_omega
        have hfreq' : (freqOf s.fc x + 1#32).toNat = (freqOf s.fc x).toNat + 1 := by bv_omega
        simp only [State.countSymbol_total, State.countSymbol_fc]
        omega)
      build_nonempty := fun hbuild => by simp [hi] at hbuild
      table_built := fun htv => by simp [htable] at htv }

theorem StateInv.beginBuild {s : State} (h : StateInv s) (hb : s.busy = false) (hp : s.phase = .count)
    (hn : s.nsym ≠ 0) : StateInv (s.beginLong .build) :=
  { h with
    long :=
      { busy_iff := by simp
        busy_phase := by simp [hp]
        build_phase := fun _ => hp
        enc_ready := nofun
        fifo_bound := h.long.fifo_bound }
    counts := { h.counts with }
    err := by simp [ErrOk, hp, h.ovrp_of_idle hb, h.errCode_of_idle hb (by simp [hp])]
    ovrp_busy := fun _ => rfl
    build_nonempty := fun _ => hn
    enc_stat := nofun }

theorem StateInv.beginEnc {s : State} (h : StateInv s) {x : Sym} (hb : s.busy = false) (hp : s.phase = .ready)
    (hl : (entryOf s.ct x).len ≠ 0#8) (hs : s.symcnt ≠ 0xFFFFFFFF#32) : StateInv (s.beginLong (.enc x)) :=
  { h with
    long :=
      { busy_iff := by simp
        busy_phase := by simp [hp]
        build_phase := nofun
        enc_ready := by
          intro y hy
          obtain rfl : x = y := by simpa using hy
          exact ⟨hp, h.ready_table hp, hl⟩
        fifo_bound := h.long.fifo_bound }
    counts := { h.counts with }
    err := by simp [ErrOk, hp, h.ovrp_of_idle hb, h.errCode_of_idle hb (by simp [hp])]
    ovrp_busy := fun _ => rfl
    build_nonempty := nofun
    enc_stat := fun _ _ => hs }

theorem StateInv.startPass {s : State} (h : StateInv s) (hb : s.busy = false)
    (hp : s.phase = .ready ∨ (s.phase = .error ∧ s.tvalid = true)) : StateInv s.startPass :=
  { h with
    long := .of_idle hb (h.inflight_of_idle hb) (Nat.zero_le _)
    counts := { h.counts with }
    count_phase := nofun
    err := by simp [ErrOk, h.ovrp_of_idle hb]
    ready_table := fun _ => hp.elim h.ready_table And.right
    enc_stat := fun x hx => by simp [h.inflight_of_idle hb] at hx
    bits_bound := by simp }

theorem IssueEffect.stateInv {w : Word} {s t : State} (he : IssueEffect w s t) (h : StateInv s) : StateInv t := by
  cases he with
  | nothing => exact h
  | clear _ => exact h.cleared
  | overrun hb _ => exact h.overrun w hb
  | raise e hb _ hc => exact h.raise hc.ne.1 w hb
  | count x _ hb hp ht => exact h.countSymbol x hb hp ht
  | build _ hb hp hn => exact h.beginBuild hb hp hn
  | startPass _ hb hp => exact h.startPass hb hp
  | enc x _ hb hp hl hs => exact h.beginEnc hb hp hl hs

/-! ### The ENGINE's completion -/

/-- What the two commits share: they give a table of the present counters, they keep OBUF within its capacity and the
bit counter within its bound; the rest of a completion is the end of the long command (R40). -/
theorem StateInv.complete_of_commit {s : State} (h : StateInv s) (hb : s.busy = true)
    (hfifo : s.commit.obuf.length ≤ s.cfg.obufDepth) (htv : s.commit.tvalid = true)
    (hct : s.commit.ct = builtTable s.fc) (hroot : s.commit.rootFreq = builtRootFreq s.fc) (hn : s.nsym ≠ 0)
    (hbits : s.commit.bitcnt.toNat ≤ 255 * s.commit.symcnt.toNat) : StateInv s.complete := by
  obtain ⟨hovrp, -, -, herr, -, -, -, hcfg, hfc, htotal, -, -⟩ := s.commit_frame
  rw [State.complete, State.endLong_eq]
  exact
    { cfg_wf := hcfg ▸ h.cfg_wf
      long := .of_idle rfl rfl (by simpa [hcfg] using hfifo)
      counts := .of_total_eq (by simpa [hfc, htotal] using h.counts.total_eq)
      count_phase := fun hp => by cases ho : s.ovrp <;> simp [hovrp, ho] at hp
      err := by
        have hcode := h.err
        simp only [ErrOk, hb, h.long.busy_phase hb] at hcode
        cases ho : s.ovrp <;> simp_all [ErrOk]
      ovrp_busy := nofun
      ready_table := fun _ => htv
      build_nonempty := nofun
      enc_stat := nofun
      table_built := fun _ => by
        refine ⟨?_, ?_, ?_⟩
        · simpa [hfc] using hct
        · simpa [hfc] using hroot
        · simpa [hfc, State.nsym] using hn
      no_table := fun hf => by simp [htv] at hf
      bits_bound := hbits }

theorem StateInv.complete_build {s : State} (h : StateInv s) (hi : s.inflight = .build) : StateInv s.complete := by
  have hb : s.busy = true := h.long.busy_iff.mpr (by simp [hi])
  refine h.complete_of_commit hb ?_ ?_ ?_ ?_ (h.build_nonempty hi) ?_ <;> rw [s.commit_build hi]
  · exact h.long.fifo_bound
  · rfl
  · rfl
  · rfl
  · exact h.bits_bound

/-- An ENC completes only where its code fits the free space of OBUF (R40, R84). -/
theorem StateInv.code_fits {s : State} (h : StateInv s) {x : Sym} (hi : s.inflight = .enc x) (hh : s.hold = false) :
    s.obuf.length + (entryOf s.ct x).len.toNat ≤ s.cfg.obufDepth := by
  have hb : s.busy = true := h.long.busy_iff.mpr (by simp [hi])
  have hfifo := h.long.fifo_bound
  have hfree : ¬ s.cfg.obufDepth - s.obuf.length < (entryOf s.ct x).len.toNat := fun hlt => by
    simp [s.hold_iff.mpr ⟨hb, x, hi, hlt⟩] at hh
  omega

/-- Neither statistic wraps at an ENC's completion (R83). -/
theorem StateInv.encCommit_counts {s : State} (h : StateInv s) {x : Sym} (hi : s.inflight = .enc x) :
    (s.encCommit x).symcnt.toNat = s.symcnt.toNat + 1 ∧
      (s.encCommit x).bitcnt.toNat = s.bitcnt.toNat + (entryOf s.ct x).len.toNat := by
  have hsym := h.enc_stat x hi
  have hbits := h.bits_bound
  have hlen := (entryOf s.ct x).len.isLt
  simp only [State.encCommit_symcnt, State.encCommit_bitcnt]
  constructor
  · bv_omega
  · rw [BitVec.toNat_add, BitVec.toNat_setWidth]
    omega

theorem StateInv.complete_enc {s : State} (h : StateInv s) {x : Sym} (hi : s.inflight = .enc x)
    (hh : s.hold = false) : StateInv s.complete := by
  have hb : s.busy = true := h.long.busy_iff.mpr (by simp [hi])
  have htv := (h.long.enc_ready x hi).2.1
  obtain ⟨hct, hroot, hn⟩ := h.table_built htv
  refine h.complete_of_commit hb ?_ ?_ ?_ ?_ hn ?_ <;> rw [s.commit_enc x hi]
  · simpa using h.code_fits hi hh
  · exact htv
  · exact hct
  · exact hroot
  · obtain ⟨hsym, hbit⟩ := h.encCommit_counts hi
    have := h.bits_bound
    have := (entryOf s.ct x).len.isLt
    omega

theorem StateInv.complete {s : State} (h : StateInv s) (he : s.engineEnabled = true) : StateInv s.complete := by
  obtain ⟨hb, hh⟩ : s.busy = true ∧ s.hold = false := by simpa [State.engineEnabled] using he
  cases hi : s.inflight with
  | none => exact absurd hi (h.long.busy_iff.mp hb)
  | build => exact h.complete_build hi
  | enc x => exact h.complete_enc hi hh

/-! ### Every step, every reachable state -/

theorem StateInv.step {s t : State} (h : StateInv s) (hs : Machine.step s = .next t) : StateInv t := by
  cases step_effect hs with
  | engine _ he => exact h.dropEvent.complete he
  | reset _ => exact h.dropEvent.applyReset
  | read off _ => exact h.dropEvent.busRead off
  | write off v _ _ hw =>
    rcases busWrite_cases off v s.dropEvent with ⟨-, e⟩ | ⟨-, e⟩ | ⟨-, -, e⟩
    · exact (issue_effect (e ▸ hw)).stateInv h.dropEvent
    · cases e.symm.trans hw
      exact h.dropEvent.setTabSel v
    · cases e.symm.trans hw
      exact h.dropEvent

theorem Reachable.stateInv {s : State} (h : Reachable s) : StateInv s := by
  induction h with
  | start c hc es => exact .initial hc es
  | step s t _ hs ih => exact ih.step hs

end Sys2Proof.Machine
end

section
/-! The statements about every reachable state (R21 to R25), from `StateInv`. -/

namespace Sys2Proof.Machine

/-! ### What a step does to the counters -/

theorem nextCommand_of_nextWrite {s : State} {v : Word} (h : s.nextWrite = some (0x04, v)) :
    s.nextCommand = some v := by
  simp [State.nextCommand, h]

/-- Only CNT in COUNT and CLR change the counters at a CMD write (R52, R91). -/
theorem IssueEffect.counts_cases {w : Word} {s t : State} (he : IssueEffect w s t) :
    (t.fc = s.fc ∧ t.total = s.total) ∨ (∃ x, w = encode (.cnt x) ∧ s.phase = .count ∧ t.tvalid = s.tvalid) ∨
      (w = encode .clr ∧ t.tvalid = false) := by
  cases he with
  | clear h => exact .inr (.inr ⟨eq_encode_of_decode h, rfl⟩)
  | count x h _ hp _ => exact .inr (.inl ⟨x, eq_encode_of_decode h, hp, rfl⟩)
  | nothing | overrun | raise | build | startPass | enc => exact .inl ⟨rfl, rfl⟩

/-- Only CNT in COUNT, CLR and reset change the counters at a step (R23). -/
theorem step_counts_cases {s t : State} (h : step s = .next t) :
    (t.fc = s.fc ∧ t.total = s.total) ∨
      (∃ x, s.nextCommand = some (encode (.cnt x)) ∧ s.phase = .count ∧ t.tvalid = s.tvalid) ∨
      (s.nextCommand = some (encode .clr) ∧ t.tvalid = false) ∨ (s.nextIsReset = true ∧ t.tvalid = false) := by
  cases step_effect h with
  | engine _ _ =>
    obtain ⟨-, -, -, -, -, -, -, -, hfc, htotal, -, -⟩ := s.dropEvent.commit_frame
    rw [State.complete, State.endLong_eq]
    exact .inl ⟨hfc, htotal⟩
  | reset hn => exact .inr (.inr (.inr ⟨hn, rfl⟩))
  | read off _ =>
    left
    by_cases hoff : off = 0x38
    · subst hoff
      exact ⟨rfl, rfl⟩
    · rw [busRead_other off _ hoff]
      exact ⟨rfl, rfl⟩
  | write off v _ hn hw =>
    rcases busWrite_cases off v s.dropEvent with ⟨rfl, e⟩ | ⟨-, e⟩ | ⟨-, -, e⟩
    · have hcmd := nextCommand_of_nextWrite hn
      rcases (issue_effect (e ▸ hw)).counts_cases with hkeep | ⟨x, rfl, hp, ht⟩ | ⟨rfl, ht⟩
      · exact .inl hkeep
      · exact .inr (.inl ⟨x, hcmd, hp, ht⟩)
      · exact .inr (.inr (.inl ⟨hcmd, ht⟩))
    · cases e.symm.trans hw
      exact .inl ⟨rfl, rfl⟩
    · cases e.symm.trans hw
      exact .inl ⟨rfl, rfl⟩

/-! ### The valid table -/

theorem StateInv.tableOk {s : State} (h : StateInv s) : TableOk s := by
  intro htv
  obtain ⟨hct, hroot, hn⟩ := h.table_built htv
  have hpresent : presentSyms s.fc ≠ [] := by simpa [State.nsym] using hn
  refine ⟨fun x => ?_, ?_, by omega⟩
  · rw [hct]
    exact builtTable_len_ne_zero_iff hpresent x
  · rw [hroot, builtRootFreq_eq_freqSum hpresent, ← h.counts.total_eq, BitVec.ofNat_toNat, BitVec.setWidth_eq]

/-! ### The statements -/

/-- Settles O37, by the invariant of every reachable state. -/
theorem reachableLongCommandState : Obligations.ReachableLongCommandState := by
  intro s hs
  have h := hs.stateInv.long
  exact ⟨h.busy_iff, h.busy_phase, h.build_phase, h.enc_ready, h.fifo_bound⟩

/-- Settles O38, by the invariant of every reachable state; TOTAL has 32 bits. -/
theorem reachableTotalIsTheSum : Obligations.ReachableTotalIsTheSum := by
  intro s hs
  have h := hs.stateInv.counts
  exact ⟨h.total_eq, Nat.le_sub_one_of_lt s.total.isLt, h.freq_le⟩

/-- Settles O39: the first sentence is an invariant, the second is `step_counts_cases`; a CNT counts in COUNT only,
where no table is valid, and CLR and reset leave none. -/
theorem reachableCountPhase : Obligations.ReachableCountPhase := by
  intro s hs
  have hcount := hs.stateInv.count_phase
  refine ⟨hcount, fun t ht => ?_⟩
  rcases step_counts_cases ht with ⟨hfc, htotal⟩ | ⟨x, hcmd, hp, htv⟩ | ⟨hcmd, htv⟩ | ⟨hreset, htv⟩
  · exact ⟨fun hne => (hne.elim (· hfc) (· htotal)).elim, fun _ _ => ⟨hfc, htotal⟩⟩
  · exact ⟨fun _ => .inl ⟨x, hcmd, hp⟩, fun hs' => by simp [(hcount hp).1] at hs'⟩
  · exact ⟨fun _ => .inr (.inl hcmd), fun _ ht' => by simp [htv] at ht'⟩
  · exact ⟨fun _ => .inr (.inr hreset), fun _ ht' => by simp [htv] at ht'⟩

/-- Settles O40: a valid table is the one BUILD makes of the present counters. -/
theorem reachableValidTable : Obligations.ReachableValidTable :=
  fun _ hs => hs.stateInv.tableOk

/-- Settles O41, by the invariant of every reachable state. -/
theorem reachableErrorCode : Obligations.ReachableErrorCode :=
  fun _ hs => hs.stateInv.err

end Sys2Proof.Machine
end

section
/-! What the registers read (R27, R28) and the derived values (R18). -/

namespace Sys2Proof.Machine

/-! ### Bits of a register word -/

theorem getLsbD_bitAt {i : Nat} (hi : i < 32) (b : Bool) (j : Nat) :
    (bitAt i b).getLsbD j = (decide (j = i) && b) := by
  by_cases hj : j = i
  · subst hj
    simp [bitAt, hi]
  · by_cases hlt : j < i
    · simp [bitAt, hlt, hj]
    · simp [bitAt, hj, show j - i ≠ 0 by omega]

theorem getLsbD_fieldAt {n : Nat} (v : BitVec n) (k : Nat) {j : Nat} (hj : j < 32) :
    (v.setWidth 32 <<< k).getLsbD j = (decide (k ≤ j) && v.getLsbD (j - k)) := by
  by_cases hk : k ≤ j
  · simp [hj, hk]
  · simp [hk, show j < k by omega]

/-- STATUS, bit by bit (R27). -/
theorem State.getLsbD_statusWord (s : State) {j : Nat} (hj : j < 32) :
    s.statusWord.getLsbD j
      = (decide (j = 0) && s.busy || decide (j = 1) && s.hold || decide (2 ≤ j) && s.phase.bits.getLsbD (j - 2)
        || decide (j = 4) && s.tvalid || decide (j = 5) && s.ovrp) := by
  simp only [State.statusWord, BitVec.getLsbD_or, getLsbD_fieldAt _ _ hj]
  rw [getLsbD_bitAt (by decide), getLsbD_bitAt (by decide), getLsbD_bitAt (by decide), getLsbD_bitAt (by decide)]

/-- ERR, bit by bit (R27). -/
theorem State.getLsbD_errWord (s : State) {j : Nat} (hj : j < 32) :
    s.errWord.getLsbD j
      = (s.errCode.bits.getLsbD j || decide (8 ≤ j) && s.errSym.getLsbD (j - 8)
        || decide (16 ≤ j) && s.errOp.getLsbD (j - 16)) := by
  simp only [State.errWord, BitVec.getLsbD_or, getLsbD_fieldAt _ _ hj, BitVec.getLsbD_setWidth, hj, decide_true,
    Bool.true_and]

/-- TAB_INFO, bit by bit (R27). -/
theorem State.getLsbD_tabInfoWord (s : State) {j : Nat} (hj : j < 32) :
    s.tabInfoWord.getLsbD j
      = (s.shownEntry.len.getLsbD j || decide (j = 8) && (freqOf s.fc s.tabSel != 0#32)
        || decide (j = 9) && s.tvalid) := by
  simp only [State.tabInfoWord, BitVec.getLsbD_or, BitVec.getLsbD_setWidth, hj, decide_true, Bool.true_and]
  rw [getLsbD_bitAt (by decide), getLsbD_bitAt (by decide)]

/-! ### Fields of a register word -/

theorem extractLsb'_eq_of_getLsbD {k n : Nat} {w : Word} {v : BitVec n}
    (h : ∀ j, j < n → w.getLsbD (k + j) = v.getLsbD j) : w.extractLsb' k n = v := by
  apply BitVec.eq_of_getLsbD_eq
  intro j hj
  simp [hj, h j hj]

theorem State.statusWord_phase (s : State) : s.statusWord.extractLsb' 2 2 = s.phase.bits := by
  refine extractLsb'_eq_of_getLsbD fun j hj => ?_
  rw [s.getLsbD_statusWord (by omega)]
  simp [show 2 + j ≠ 1 by omega, show 2 + j ≠ 4 by omega, show 2 + j ≠ 5 by omega]

theorem State.statusWord_unlisted (s : State) : s.statusWord.extractLsb' 6 26 = 0#26 := by
  refine extractLsb'_eq_of_getLsbD fun j hj => ?_
  rw [s.getLsbD_statusWord (by omega)]
  simp [show 6 + j ≠ 1 by omega, show 6 + j ≠ 4 by omega, show 6 + j ≠ 5 by omega,
    BitVec.getLsbD_of_ge s.phase.bits (6 + j - 2) (by omega)]

theorem State.errWord_code (s : State) : s.errWord.extractLsb' 0 4 = s.errCode.bits := by
  refine extractLsb'_eq_of_getLsbD fun j hj => ?_
  rw [s.getLsbD_errWord (by omega)]
  simp [hj, show ¬ 8 ≤ j by omega, show ¬ 16 ≤ j by omega]

theorem State.errWord_sym (s : State) : s.errWord.extractLsb' 8 8 = s.errSym := by
  refine extractLsb'_eq_of_getLsbD fun j hj => ?_
  rw [s.getLsbD_errWord (by omega)]
  simp [hj, show ¬ 16 ≤ 8 + j by omega, BitVec.getLsbD_of_ge s.errCode.bits (8 + j) (by omega)]

theorem State.errWord_op (s : State) : s.errWord.extractLsb' 16 8 = s.errOp := by
  refine extractLsb'_eq_of_getLsbD fun j hj => ?_
  rw [s.getLsbD_errWord (by omega)]
  simp [hj, BitVec.getLsbD_of_ge s.errCode.bits (16 + j) (by omega),
    BitVec.getLsbD_of_ge s.errSym (16 + j - 8) (by omega)]

theorem State.errWord_unlisted_low (s : State) : s.errWord.extractLsb' 4 4 = 0#4 := by
  refine extractLsb'_eq_of_getLsbD fun j hj => ?_
  rw [s.getLsbD_errWord (by omega)]
  simp [show ¬ 8 ≤ 4 + j by omega, show ¬ 16 ≤ 4 + j by omega]

theorem State.errWord_unlisted_high (s : State) : s.errWord.extractLsb' 24 8 = 0#8 := by
  refine extractLsb'_eq_of_getLsbD fun j hj => ?_
  rw [s.getLsbD_errWord (by omega)]
  simp [BitVec.getLsbD_of_ge s.errCode.bits (24 + j) (by omega), BitVec.getLsbD_of_ge s.errSym (24 + j - 8) (by omega),
    BitVec.getLsbD_of_ge s.errOp (24 + j - 16) (by omega)]

theorem State.shownEntry_len (s : State) :
    s.shownEntry.len = if s.tvalid then (entryOf s.ct s.tabSel).len else 0#8 := by
  unfold State.shownEntry
  split <;> rfl

theorem State.getLsbD_shownEntry_code (s : State) (i : Nat) :
    s.shownEntry.code.getLsbD i = (s.tvalid && (entryOf s.ct s.tabSel).code.getLsbD i) := by
  cases h : s.tvalid <;> simp [State.shownEntry, h, CtEntry.empty]

theorem State.tabInfoWord_len (s : State) : s.tabInfoWord.extractLsb' 0 8 = s.shownEntry.len := by
  refine extractLsb'_eq_of_getLsbD fun j hj => ?_
  rw [s.getLsbD_tabInfoWord (by omega)]
  simp [hj, show j ≠ 8 by omega, show j ≠ 9 by omega]

theorem State.tabInfoWord_unlisted (s : State) : s.tabInfoWord.extractLsb' 10 22 = 0#22 := by
  refine extractLsb'_eq_of_getLsbD fun j hj => ?_
  rw [s.getLsbD_tabInfoWord (by omega)]
  simp [show 10 + j ≠ 8 by omega, show 10 + j ≠ 9 by omega,
    BitVec.getLsbD_of_ge s.shownEntry.len (10 + j) (by omega)]

/-- BITCNT is shown in two halves (R27). -/
theorem bitcnt_halves (v : BitCount) :
    (v.extractLsb' 32 32).toNat * 2 ^ 32 + (v.extractLsb' 0 32).toNat = v.toNat := by
  simp only [BitVec.extractLsb'_toNat, Nat.shiftRight_eq_div_pow]
  omega

theorem regAt_tabCode {w : Nat} (hw : w < 8) : regAt (0x40 + 4 * w) = .tabCode ⟨w, hw⟩ := by
  interval_cases w <;> rfl

/-- TAB_CODE bit j of word w is code bit 32 w + j of the shown entry; there is no code bit 255 (R28). -/
theorem getLsbD_regValue_tabCode (s : State) (w : Fin 8) {j : Nat} (hj : j < 32) :
    (regValue (.tabCode w) s).getLsbD j = (s.tvalid && (entryOf s.ct s.tabSel).code.getLsbD (32 * w + j)) := by
  have hw := w.isLt
  simp only [regValue, BitVec.getLsbD_extractLsb', BitVec.getLsbD_setWidth, State.getLsbD_shownEntry_code]
  simp [hj, show 32 * w.val + j < 256 by omega]

/-- A 16-bit field shows a number below 65536 as it is (R8). -/
theorem toNat_ofNat_16 {n : Nat} (h : n ≤ 65535) : ((BitVec.ofNat 16 n).setWidth 32).toNat = n := by
  simp only [BitVec.toNat_setWidth, BitVec.toNat_ofNat]
  omega

theorem Config.obufDepth_le {c : Config} (h : c.wf = true) : c.obufDepth ≤ 65535 := by
  rw [Config.wf, Bool.and_eq_true, decide_eq_true_eq, decide_eq_true_eq] at h
  exact h.2

/-! ### The derived values -/

theorem State.nsym_le (s : State) : s.nsym ≤ 256 := length_presentSyms_le s.fc

theorem State.nsym_eq_card (s : State) :
    s.nsym = (Finset.univ.filter (fun x : Sym => freqOf s.fc x ≠ 0#32)).card := by
  rw [State.nsym, ← List.toFinset_card_of_nodup (nodup_presentSyms s.fc)]
  congr 1
  ext x
  simp

/-! ### The statements -/

/-- Settles O33: the present symbols are listed once each, and `hold` is its definition. -/
theorem derivedValues : Obligations.DerivedValues :=
  fun s => ⟨s.nsym_eq_card, s.nsym_le, s.hold_iff⟩

/-- Settles O31: code bit 255 would be at bit 31 of TAB_CODE7. -/
theorem tabCode7TopBitIsZero : Obligations.TabCode7TopBitIsZero := by
  intro s
  have h := getLsbD_regValue_tabCode s 7 (j := 31) (by decide)
  rw [BitVec.getLsbD_of_ge _ (32 * (7 : Fin 8).val + 31) (by decide), Bool.and_false] at h
  exact h

/-- Settles O30, register by register in the order of the map. -/
theorem registerMapFields : Obligations.RegisterMapFields := by
  intro s
  have hstatus := fun j (hj : j < 32) => s.getLsbD_statusWord hj
  have hinfo := fun j (hj : j < 32) => s.getLsbD_tabInfoWord hj
  refine ⟨rfl, rfl, ⟨?busy, ?hold, ?phase, ?tvalid, ?ovrp, s.statusWord_unlisted⟩,
    ⟨s.errWord_code, s.errWord_unlisted_low, s.errWord_sym, s.errWord_op, s.errWord_unlisted_high⟩, rfl, ?nsym,
    s.nsym_le, ?tabSel, rfl, ⟨?len, ?present, ?infoValid, s.tabInfoWord_unlisted⟩, rfl, rfl, bitcnt_halves s.bitcnt,
    ?outLevel, ?outEmpty, ?outBit, ?param, ?tabCode, rfl, fun _ => rfl, fun _ => rfl, ?ignored⟩
  case busy => exact (hstatus 0 (by decide)).trans (by simp)
  case hold => exact (hstatus 1 (by decide)).trans (by simp)
  case phase => exact s.statusWord_phase
  case tvalid => exact (hstatus 4 (by decide)).trans (by simp)
  case ovrp => exact (hstatus 5 (by decide)).trans (by simp)
  case nsym =>
    have := s.nsym_le
    show (BitVec.ofNat 32 s.nsym).toNat = s.nsym
    rw [BitVec.toNat_ofNat]
    omega
  case tabSel => exact BitVec.toNat_setWidth_of_le (by decide)
  case len => exact s.tabInfoWord_len.trans s.shownEntry_len
  case present => exact (hinfo 8 (by decide)).trans (by simp [bne, beq_eq_decide])
  case infoValid => exact (hinfo 9 (by decide)).trans (by simp)
  case outLevel => exact fun hc hf => toNat_ofNat_16 (hf.trans (Config.obufDepth_le hc))
  case outEmpty =>
    intro h
    simp [regAt, regValue, State.outBitWord, h]
  case outBit =>
    intro b rest h
    cases b <;> simp [regAt, regValue, State.outBitWord, h, bitAt]
  case param => exact fun hc => toNat_ofNat_16 (Config.obufDepth_le hc)
  case tabCode =>
    intro w j hw hj
    rw [regAt_tabCode hw]
    exact getLsbD_regValue_tabCode s ⟨w, hw⟩ hj
  case ignored =>
    intro off v h4 h18
    rcases busWrite_cases off v s with ⟨h, -⟩ | ⟨h, -⟩ | ⟨-, -, e⟩
    · exact absurd h h4
    · exact absurd h h18
    · exact e

end Sys2Proof.Machine
end

section
/-! The register port and `Complete()` (R31, R32, R35, R40). -/

namespace Sys2Proof.Machine

/-! ### The register window -/

/-- What the window answers: the offset of a well-formed access, a refusal for every other one (R31, R32). -/
theorem windowOffset_cases (c : Config) (a : Access) :
    ((c.regBase ≤ a.addr ∧ accessWf (a.addr - c.regBase) a.width.numBits = true) ∧
        windowOffset c a = .ok (a.addr - c.regBase)) ∨
      (¬ (c.regBase ≤ a.addr ∧ accessWf (a.addr - c.regBase) a.width.numBits = true) ∧
        ∃ r, windowOffset c a = .error r) := by
  have hwidth : a.width.numBits ≤ 32 := by cases a.width <;> decide
  simp only [accessWf, Bool.and_eq_true, decide_eq_true_eq]
  unfold windowOffset
  split
  case isTrue hnarrow => exact .inr ⟨by omega, _, rfl⟩
  case isFalse hnarrow =>
    split
    case isTrue houtside => exact .inr ⟨by omega, _, rfl⟩
    case isFalse houtside =>
      split
      case isTrue hmisaligned => exact .inr ⟨by omega, _, rfl⟩
      case isFalse hmisaligned => exact .inl ⟨by omega, rfl⟩

/-- A 32-bit access addresses its offset, when that is a multiple of 4 inside the window (R31). -/
theorem windowOffset_word (c : Config) {off : Nat} (op : AccessOp) (h4 : off % 4 = 0) (hlt : off < 0x100) :
    windowOffset c { addr := c.regBase + off, width := .word, op := op } = .ok off := by
  rcases windowOffset_cases c { addr := c.regBase + off, width := .word, op := op } with ⟨-, e⟩ | ⟨hwf, -⟩
  · rw [e, Nat.add_sub_cancel_left]
  · exact absurd ⟨Nat.le_add_right .., by simp [accessWf, AccessWidth.numBits, h4, hlt]⟩ hwf

/-! ### A host step -/

theorem hostStep_of_error {a : Access} {s : State} {r : Refusal} (h : windowOffset s.cfg a = .error r) :
    hostStep a s = .refused r := by
  simp [hostStep, h]

theorem hostStep_of_read {a : Access} {s : State} {off : Nat} (h : windowOffset s.cfg a = .ok off)
    (hop : a.op = .read) : hostStep a s = .next (busRead off s) := by
  simp [hostStep, h, hop]

theorem hostStep_of_write {a : Access} {s : State} {off : Nat} {v : Word} (h : windowOffset s.cfg a = .ok off)
    (hop : a.op = .write v) : hostStep a s = busWrite off v s := by
  simp [hostStep, h, hop]

/-- A bus write is never refused and never faults: an error it raises is a next state too (R35, R93). -/
theorem busWrite_next (off : Nat) (v : Word) (s : State) : ∃ t, busWrite off v s = .next t := by
  rcases busWrite_cases off v s with ⟨-, e⟩ | ⟨-, e⟩ | ⟨-, -, e⟩ <;> rw [e]
  · exact issue_next v s
  · exact ⟨_, rfl⟩
  · exact ⟨_, rfl⟩

/-- An access inside the window has a next state (R31). -/
theorem hostStep_next {a : Access} {s : State} {off : Nat} (h : windowOffset s.cfg a = .ok off) :
    ∃ t, hostStep a s = .next t := by
  cases hop : a.op with
  | read => exact ⟨_, hostStep_of_read h hop⟩
  | write v =>
    rw [hostStep_of_write h hop]
    exact busWrite_next off v s

/-- A write outside CMD and TAB_SEL is ignored (R33, R35). -/
theorem busWrite_other {off : Nat} (v : Word) (s : State) (h4 : off ≠ 0x04) (h18 : off ≠ 0x18) :
    busWrite off v s = .next s := by
  rcases busWrite_cases off v s with ⟨h, -⟩ | ⟨h, -⟩ | ⟨-, -, e⟩
  · exact absurd h h4
  · exact absurd h h18
  · exact e

/-- The step of a pending host write is the bus write, after the event is taken off (R12). -/
theorem step_hostWrite {s : State} {off : Nat} {v : Word} {rest : List Event} (h4 : off % 4 = 0) (hlt : off < 0x100)
    (he : s.events = hostWrite s.cfg off v :: rest) : step s = busWrite off v { s with events := rest } := by
  have hstep : step s = eventStep (hostWrite s.cfg off v) { s with events := rest } := by simp [step, he]
  rw [hstep]
  exact hostStep_of_write (windowOffset_word s.cfg (.write v) h4 hlt) rfl

/-- A read does not touch the long command in flight (R40). -/
theorem busRead_inflight (off : Nat) (s : State) :
    (busRead off s).busy = s.busy ∧ (busRead off s).inflight = s.inflight := by
  by_cases h : off = 0x38
  · subst h
    exact ⟨rfl, rfl⟩
  · rw [busRead_other off s h]
    exact ⟨rfl, rfl⟩

/-! ### `Complete()` -/

theorem State.engineEnabled_iff (s : State) : s.engineEnabled = true ↔ s.busy = true ∧ s.hold = false := by
  simp [State.engineEnabled]

/-- The ENGINE answers a next state exactly where `Complete()` is enabled, and then it is `Complete()`'s (R40). -/
theorem engineStep_eq_next_iff (s t : State) : engineStep s = .next t ↔ s.engineEnabled = true ∧ t = s.complete := by
  unfold engineStep
  split
  case isTrue h => simp [h, eq_comm]
  case isFalse h => simp [h]

/-- `Complete()`, by the commit's result: the long command ends (R40). -/
theorem State.complete_eq (s : State) :
    s.complete = { s.commit with
      busy := false, inflight := .none, ovrp := false, phase := if s.ovrp then Phase.error else Phase.ready } := by
  obtain ⟨hovrp, -⟩ := s.commit_frame
  rw [State.complete, State.endLong_eq, hovrp]

/-! ### The statements -/

/-- Settles O20: the ENGINE's step is `Complete()`, which ends the command after BuildCommit or EncCommit. -/
theorem completeEndsTheLongCommand : Obligations.CompleteEndsTheLongCommand := by
  have eq_complete : ∀ s t, engineStep s = .next t → t = s.complete := fun s t h =>
    ((engineStep_eq_next_iff s t).mp h).2
  refine ⟨?enabled, ?ends, ?build, ?enc, fun s off => busRead_inflight off s⟩
  case enabled =>
    intro s
    simp only [engineStep_eq_next_iff, exists_and_left, exists_eq, and_true]
    exact s.engineEnabled_iff
  case ends =>
    intro s t h
    refine ⟨eq_complete s t h, ?_⟩
    rw [eq_complete s t h, s.complete_eq]
    exact ⟨rfl, rfl, rfl, rfl⟩
  case build =>
    intro s t h hi
    rw [eq_complete s t h, s.complete_eq, s.commit_build hi]
    exact ⟨rfl, rfl, rfl⟩
  case enc =>
    intro s t x h hi
    rw [eq_complete s t h, s.complete_eq, s.commit_enc x hi]
    exact ⟨rfl, rfl, rfl⟩

/-- Settles O26: the window refuses exactly the ill-formed accesses, and no other access is refused. -/
theorem illFormedAccessesAreRefused : Obligations.IllFormedAccessesAreRefused := by
  intro a s
  rcases windowOffset_cases s.cfg a with ⟨hwf, hok⟩ | ⟨hwf, r, herr⟩
  · obtain ⟨t, ht⟩ := hostStep_next hok
    refine ⟨⟨fun ⟨r, hr⟩ => ?_, fun hn => absurd hwf hn⟩, fun _ _ => ⟨t, ht⟩⟩
    cases ht.symm.trans hr
  · exact ⟨⟨fun _ => hwf, fun _ => ⟨r, hostStep_of_error herr⟩⟩, fun hle h => absurd ⟨hle, h⟩ hwf⟩

/-- Settles O29: the three kinds of bus write, and the TAB_SEL write as a step. -/
theorem busWriteEffects : Obligations.BusWriteEffects :=
  ⟨fun _ _ => rfl, fun _ _ => rfl, fun _ v s h4 h18 => busWrite_other v s h4 h18,
    fun _ _ _ he => step_hostWrite (by decide) (by decide) he⟩

end Sys2Proof.Machine
end

section
/-! Command words: `decode`, `legal` and `encode` speak of the same 516 words (R44 to R47). -/

namespace Sys2Proof.Machine

/-! ### The decoder, the encoder and `Legal` -/

theorem decode_encode (i : Instr) : decode (encode i) = .ok i := by
  cases i with
  | nop | clr | build | estart => decide
  | cnt x | enc x => simp [decode, encode, decodeWithSymbol]

theorem encode_injective : Function.Injective encode := fun i j h =>
  Except.ok.inj ((decode_encode i).symm.trans (h ▸ decode_encode j))

theorem decode_eq_ok_iff {w : Word} {i : Instr} : decode w = .ok i ↔ w = encode i :=
  ⟨eq_encode_of_decode, fun h => h ▸ decode_encode i⟩

@[simp] theorem legal_encode (i : Instr) : legal (encode i) = true := by
  cases i with
  | nop => exact Laws.LegalWord.nop.1
  | clr => exact Laws.LegalWord.clr.1
  | cnt x => exact (Laws.LegalWord.cnt x).1
  | build => exact Laws.LegalWord.build.1
  | estart => exact Laws.LegalWord.estart.1
  | enc x => exact (Laws.LegalWord.enc x).1

@[simp] theorem rsvField_encode (i : Instr) : rsvField (encode i) = 0#16 := by
  cases i <;> exact rsvField_packCommand _ _

/-- `w[23:0] = 0` says that RSV and SYM are both 0 (R44). -/
theorem rsvField_symField_of_low {w : Word} (h : w.extractLsb' 0 24 = 0#24) :
    rsvField w = 0#16 ∧ symField w = 0#8 := by
  have low : ∀ k n, k + n ≤ 24 → w.extractLsb' k n = (w.extractLsb' 0 24).extractLsb' k n := fun k n hkn => by
    ext j hj
    simp [show k + j < 24 by omega]
  exact ⟨by rw [rsvField, low 8 16 (by decide), h]; rfl, by rw [symField, low 0 8 (by decide), h]; rfl⟩

/-- R47 and R46: a legal word is one the decoder accepts. -/
theorem exists_decode_of_legal {w : Word} (h : legal w = true) : ∃ i, decode w = .ok i := by
  have noOperand : ∀ i, (w.extractLsb' 0 24 == 0#24) = true → ∃ j, decodeNoOperand w i = .ok j := fun i hw => by
    obtain ⟨hrsv, hsym⟩ := rsvField_symField_of_low (beq_iff_eq.mp hw)
    exact ⟨i, by simp [decodeNoOperand, hrsv, hsym]⟩
  have withSymbol : ∀ f, (w.extractLsb' 8 16 == 0#16) = true → ∃ j, decodeWithSymbol w f = .ok j := fun f hw =>
    ⟨f (symField w), by simp [decodeWithSymbol, rsvField, beq_iff_eq.mp hw]⟩
  unfold legal at h
  unfold decode opField
  split at h
  case h_1 hop => simpa only [hop] using noOperand .nop h
  case h_2 hop => simpa only [hop] using noOperand .clr h
  case h_3 hop => simpa only [hop] using noOperand .build h
  case h_4 hop => simpa only [hop] using noOperand .estart h
  case h_5 hop => simpa only [hop] using withSymbol .cnt h
  case h_6 hop => simpa only [hop] using withSymbol .enc h
  case h_7 => cases h

theorem legal_iff_exists_encode {w : Word} : legal w = true ↔ ∃ i, w = encode i := by
  constructor
  · intro h
    obtain ⟨i, hi⟩ := exists_decode_of_legal h
    exact ⟨i, eq_encode_of_decode hi⟩
  · rintro ⟨i, rfl⟩
    exact legal_encode i

theorem ne_encode_of_illegal {w : Word} (h : legal w = false) (i : Instr) : w ≠ encode i := by
  rintro rfl
  simp at h

/-! ### The list of the legal words -/

/-- The 516 instructions, in the order of `legalWords`. -/
def allInstrs : List Instr := [.nop, .clr, .build, .estart] ++ allSyms.map .cnt ++ allSyms.map .enc

theorem mem_allInstrs (i : Instr) : i ∈ allInstrs := by
  cases i <;> simp [allInstrs, mem_allSyms]

theorem nodup_allInstrs : allInstrs.Nodup := by
  have hcnt : (allSyms.map Instr.cnt).Nodup := nodup_allSyms.map fun _ _ => Instr.cnt.inj
  have henc : (allSyms.map Instr.enc).Nodup := nodup_allSyms.map fun _ _ => Instr.enc.inj
  simp [allInstrs, List.nodup_append, hcnt, henc]

theorem length_allInstrs : allInstrs.length = 516 := by
  simp [allInstrs, length_allSyms]

/-- OP and SYM do not overlap, so packing them is adding them (R44, R46). -/
theorem packCommand_eq_add (op : BitVec 8) (x : Sym) :
    packCommand op x = op.setWidth 32 <<< 24 + x.setWidth 32 := by
  refine (BitVec.add_eq_or_of_and_eq_zero _ _ ?_).symm
  ext j hj
  by_cases h : j < 24
  · simp [h]
  · simp [BitVec.getLsbD_of_ge x j (by omega)]

theorem legalWords_eq_map_encode : legalWords = allInstrs.map encode := by
  have hcnt : ∀ x : Sym, 0x02000000#32 + x.setWidth 32 = encode (.cnt x) := fun x =>
    (packCommand_eq_add 0x02#8 x).symm
  have henc : ∀ x : Sym, 0x05000000#32 + x.setWidth 32 = encode (.enc x) := fun x =>
    (packCommand_eq_add 0x05#8 x).symm
  simp only [legalWords, allInstrs, hcnt, henc, List.map_append, List.map_map, Function.comp_def]
  rfl

theorem mem_legalWords_iff {w : Word} : w ∈ legalWords ↔ ∃ i, w = encode i := by
  simp [legalWords_eq_map_encode, mem_allInstrs, eq_comm]

/-- Settles O2: the list is the encodings of all instructions, and `encode` is injective. -/
theorem legalWordsAreThe516 : Obligations.LegalWordsAreThe516 := by
  refine ⟨fun w => legal_iff_exists_encode.trans mem_legalWords_iff.symm, ?nodup, ?length, fun w => ?decoded⟩
  case nodup =>
    rw [legalWords_eq_map_encode]
    exact nodup_allInstrs.map encode_injective
  case length => rw [legalWords_eq_map_encode, List.length_map, length_allInstrs]
  case decoded => simp only [legal_iff_exists_encode, decode_eq_ok_iff]

end Sys2Proof.Machine
end

section
/-! `Issue` (R48, R49): an illegal word, a legal word, and a word discarded while busy. -/

namespace Sys2Proof.Machine

/-! ### Illegal words -/

theorem symField_encode_of_op {i : Instr} (h : (opField (encode i)).toNat ∈ [0x00, 0x01, 0x03, 0x04]) :
    symField (encode i) = 0#8 := by
  cases i with
  | nop | clr | build | estart => exact symField_packCommand _ _
  | cnt x | enc x => simp [encode] at h

theorem opField_encode_lt (i : Instr) : (opField (encode i)).toNat < 0x06 := by
  cases i <;> simp [encode]

/-- A word whose fields no encoding has is illegal (R48). -/
theorem illegal_of_forall_ne_encode {w : Word} (h : ∀ i, w ≠ encode i) : legal w = false := by
  rw [← Bool.not_eq_true, legal_iff_exists_encode]
  exact fun ⟨i, hi⟩ => h i hi

theorem issue_encode (i : Instr) (s : State) : issue (encode i) s = exec i s := by
  simp [issue, decode_encode]

theorem issue_of_illegal {w : Word} (h : legal w = false) (s : State) : issue w s = .next (s.issueIllegal w) := by
  unfold issue
  split
  case h_1 i hd => exact absurd (eq_encode_of_decode hd) (ne_encode_of_illegal h i)
  case h_2 => rfl

theorem State.gated_of_idle {s : State} (hb : s.busy = false) (hp : s.phase ≠ .error) (w : Word)
    (body : State → State) : s.gated w body = body s := by
  simp [State.gated, hb, hp]

/-- Settles O4: no instruction's encoding has such fields, and the gate lets the illegal word raise its error. -/
theorem illegalWordsRaiseIllegalCommand : Obligations.IllegalWordsRaiseIllegalCommand := by
  refine ⟨fun w hrsv => ?rsv, fun w hsym hop => ?sym, fun w hop => ?op, fun w s h hb hp => ?effect⟩
  case rsv => exact illegal_of_forall_ne_encode fun i hi => hrsv (hi ▸ rsvField_encode i)
  case sym => exact illegal_of_forall_ne_encode fun i hi => hsym (hi ▸ symField_encode_of_op (hi ▸ hop))
  case op => exact illegal_of_forall_ne_encode fun i hi => Nat.not_lt.mpr hop (hi ▸ opField_encode_lt i)
  case effect =>
    rw [issue_of_illegal h, State.issueIllegal, State.gated_of_idle hb hp]
    rfl

/-! ### The branches of R49 -/

theorem issueRule_clr (s : State) : issueRule (encode .clr) s = s.cleared := by
  have hw : encode .clr = 0x01000000#32 := rfl
  cases hb : s.busy <;> by_cases hp : s.phase = .error <;> simp [issueRule, hw, hb, hp, legal]

theorem issueRule_nop (s : State) : issueRule (encode .nop) s = s := by
  have hw : encode .nop = 0x00000000#32 := rfl
  cases hb : s.busy <;> by_cases hp : s.phase = .error <;> simp [issueRule, hw, hb, hp, legal]

theorem issueRule_of_busy {w : Word} {s : State} (hb : s.busy = true) (hnop : w ≠ encode .nop)
    (hclr : w ≠ encode .clr) : issueRule w s = s.overrun w := by
  have hnop : w ≠ 0x00000000#32 := hnop
  have hclr : w ≠ 0x01000000#32 := hclr
  rw [issueRule, if_pos hb, if_neg hclr, if_neg hnop]
  rfl

theorem issueRule_of_error {w : Word} {s : State} (hb : s.busy = false) (hp : s.phase = .error)
    (hclr : w ≠ encode .clr) :
    issueRule w s = if w = encode .estart ∧ s.tvalid = true then s.startPass else s := by
  have hclr : w ≠ 0x01000000#32 := hclr
  rw [issueRule, if_neg (by simp [hb]), if_pos hp, if_neg hclr]
  rfl

/-- A word that no branch of R49 names is gated: it remains to compare the last branch. -/
theorem issueRule_eq_gated {w : Word} {s : State} {body : State → State} (hnop : w ≠ encode .nop)
    (hclr : w ≠ encode .clr) (hestart : w ≠ encode .estart)
    (hidle : s.busy = false → s.phase ≠ .error → issueRule w s = body s) : issueRule w s = s.gated w body := by
  rcases s.gated_cases w body with ⟨hb, e⟩ | ⟨hb, hp, e⟩ | ⟨hb, hp, e⟩ <;> rw [e]
  · exact issueRule_of_busy hb hnop hclr
  · simp [issueRule_of_error hb hp hclr, hestart]
  · exact hidle hb hp

theorem issueRule_illegal {w : Word} (h : legal w = false) (s : State) : issueRule w s = s.issueIllegal w := by
  have hne := ne_encode_of_illegal h
  refine issueRule_eq_gated (hne .nop) (hne .clr) (hne .estart) fun hb hp => ?_
  simp [issueRule, hb, hp, h]

/-- A command's own rule: its effect in COUNT or READY while not busy (R52, R57, R80, R82, R90, R91). -/
def ownRule (i : Instr) (s : State) : State :=
  match i with
  | .nop => s
  | .clr => s.cleared
  | .cnt x => s.cntBody x
  | .build => s.buildBody
  | .estart => s.estartBody
  | .enc x => s.encBody x

/-- The last branch of R49: a legal word in COUNT or READY while not busy has its command's own effect. -/
theorem issueRule_encode_of_idle {s : State} (hb : s.busy = false) (hp : s.phase ≠ .error) (i : Instr) :
    issueRule (encode i) s = ownRule i s := by
  have fields : ∀ (op : BitVec 8) (x : Sym), (packCommand op x).extractLsb' 24 8 = op ∧
      (packCommand op x).extractLsb' 0 8 = x := fun op x => ⟨opField_packCommand op x, symField_packCommand op x⟩
  rw [issueRule, if_neg (by simp [hb]), if_neg hp, if_neg (by simp)]
  cases i <;> simp [encode, fields, ownRule]

theorem issueRule_encode_eq_gated {i : Instr} (hnop : i ≠ .nop) (hclr : i ≠ .clr) (hestart : i ≠ .estart)
    (s : State) : issueRule (encode i) s = s.gated (encode i) (ownRule i) :=
  issueRule_eq_gated (encode_injective.ne hnop) (encode_injective.ne hclr) (encode_injective.ne hestart)
    fun hb hp => issueRule_encode_of_idle hb hp i

/-- ESTART alone has a branch of its own in phase ERROR (R49, R80). -/
theorem execEstart_eq_issueRule (s : State) : execEstart s = .next (issueRule (encode .estart) s) := by
  have hnop : encode .estart ≠ encode .nop := encode_injective.ne nofun
  have hclr : encode .estart ≠ encode .clr := encode_injective.ne nofun
  unfold execEstart
  congr 1
  split
  case isTrue hb => exact (issueRule_of_busy hb hnop hclr).symm
  case isFalse hb =>
    have hb : s.busy = false := by simpa using hb
    split
    case isTrue hp => simp [issueRule_of_error hb hp hclr]
    case isFalse hp => exact (issueRule_encode_of_idle hb hp .estart).symm

theorem exec_eq_issueRule (i : Instr) (s : State) : exec i s = .next (issueRule (encode i) s) := by
  cases i with
  | nop => rw [issueRule_nop]; rfl
  | clr => rw [issueRule_clr]; rfl
  | estart => exact execEstart_eq_issueRule s
  | cnt x => rw [issueRule_encode_eq_gated (i := .cnt x) nofun nofun nofun]; rfl
  | build => rw [issueRule_encode_eq_gated (i := .build) nofun nofun nofun]; rfl
  | enc x => rw [issueRule_encode_eq_gated (i := .enc x) nofun nofun nofun]; rfl

/-- R49: `Issue` is its pseudocode. -/
theorem issue_eq_issueRule (w : Word) (s : State) : issue w s = .next (issueRule w s) := by
  cases h : legal w with
  | false => rw [issue_of_illegal h, issueRule_illegal h]
  | true =>
    obtain ⟨i, rfl⟩ := legal_iff_exists_encode.mp h
    rw [issue_encode, exec_eq_issueRule]

/-! ### A word discarded while busy -/

/-- An overrun touches ERR and OVRP only, and OVRP is set after it (R49). -/
theorem State.overrun_eq (w : Word) (s : State) :
    s.overrun w = { s with
      errCode := (s.overrun w).errCode, errSym := (s.overrun w).errSym, errOp := (s.overrun w).errOp,
      ovrp := true } := by
  rcases s.overrun_cases w with ⟨ho, e⟩ | ⟨-, e⟩ <;> rw [e]
  · rw [← ho]
  · rfl

/-- After an overrun the long command is still in flight (R49). -/
theorem State.overrun_frame (w : Word) (s : State) :
    (s.overrun w).busy = s.busy ∧ (s.overrun w).inflight = s.inflight ∧ (s.overrun w).ovrp = true := by
  rw [s.overrun_eq w]
  exact ⟨rfl, rfl, rfl⟩

theorem State.complete_busy (s : State) : s.complete.busy = false := by
  rw [s.complete_eq]

/-- BuildCommit and EncCommit neither read nor write ERR and OVRP (R68, R83). -/
theorem State.commit_err_ovrp (s : State) (e : ErrCode) (sym op : BitVec 8) (o : Bool) :
    { s with errCode := e, errSym := sym, errOp := op, ovrp := o }.commit
      = { s.commit with errCode := e, errSym := sym, errOp := op, ovrp := o } := by
  obtain ⟨i, hi⟩ : ∃ i, s.inflight = i := ⟨_, rfl⟩
  cases i with
  | none => rw [s.commit_none hi]; exact State.commit_none _ hi
  | build => rw [s.commit_build hi]; exact State.commit_build _ hi
  | enc x => rw [s.commit_enc x hi]; exact State.commit_enc _ x hi

/-- After an overrun the long command completes with the same results, and enters ERROR (R40, R49). -/
theorem State.complete_overrun (w : Word) (s : State) :
    (s.overrun w).complete = { s.complete with
      errCode := (s.overrun w).errCode, errSym := (s.overrun w).errSym, errOp := (s.overrun w).errOp,
      phase := .error } := by
  rw [State.complete_eq, State.complete_eq, s.overrun_eq w, State.commit_err_ovrp]
  rfl

/-- Settles O5: `issue_eq_issueRule`; while busy the branch is the overrun, whose completion is `complete_overrun`. -/
theorem issueFollowsItsPseudocode : Obligations.IssueFollowsItsPseudocode := by
  refine ⟨issue_eq_issueRule, fun w s hb hnop hclr => ?_⟩
  obtain ⟨hbusy, hinflight, hovrp⟩ := s.overrun_frame w
  refine ⟨s.overrun w, ?_, hbusy.trans hb, hinflight, hovrp, ?_⟩
  · rw [issue_eq_issueRule, issueRule_of_busy hb hnop hclr]
  · rw [s.complete_overrun w]
    exact ⟨rfl, s.complete_busy, rfl, rfl, rfl, rfl, rfl, rfl⟩

end Sys2Proof.Machine
end

section
/-! The frequency counter (R52, R53): one CNT, and a stream of CNTs. -/

namespace Sys2Proof.Machine

/-! ### One count -/

theorem freqOf_setFreq (fc : FreqTable) (x y : Sym) (v : Word) :
    freqOf (setFreq fc x v) y = if y = x then v else freqOf fc y := by
  split
  case isTrue h => rw [h, freqOf_setFreq_self]
  case isFalse h => exact freqOf_setFreq_of_ne fc x y v h

/-- R22 bounds every counter by TOTAL: below TOTAL's maximum neither of them wraps when it rises by 1 (R52). -/
theorem CountsOk.succ_no_wrap {s : State} (h : CountsOk s) (ht : s.total ≠ 0xFFFFFFFF#32) (x : Sym) :
    (freqOf s.fc x + 1#32).toNat = (freqOf s.fc x).toNat + 1 ∧ (s.total + 1#32).toNat = s.total.toNat + 1 := by
  have hle := h.freq_le x
  have htotal : s.total.toNat + 1 < 2 ^ 32 := by bv_omega
  exact ⟨by bv_omega, by bv_omega⟩

/-- A count that does not wrap adds its symbol to the present ones: NSYM rises where the symbol is new (R18). -/
theorem State.nsym_countSymbol {s : State} {x : Sym} (h : freqOf s.fc x + 1#32 ≠ 0#32) :
    (s.countSymbol x).nsym = if freqOf s.fc x = 0#32 then s.nsym + 1 else s.nsym := by
  have hpresent : (Finset.univ.filter fun y : Sym => freqOf (s.countSymbol x).fc y ≠ 0#32) =
      insert x (Finset.univ.filter fun y : Sym => freqOf s.fc y ≠ 0#32) := by
    ext y
    by_cases hy : y = x <;> simp [freqOf_setFreq, hy, h]
  rw [State.nsym_eq_card, State.nsym_eq_card, hpresent, Finset.card_insert_eq_ite]
  by_cases h0 : freqOf s.fc x = 0#32 <;> simp [h0]

theorem nsym_reset : State.reset.nsym = 0 := by
  have hzero : ∀ y, freqOf State.reset.fc y = 0#32 := freqOf_cleared
  simp [State.nsym_eq_card, hzero]

/-! ### The CNT command -/

theorem encode_cnt (x : Sym) : encode (.cnt x) = 0x02000000#32 + x.setWidth 32 := packCommand_eq_add 0x02#8 x

theorem exec_cnt_of_idle {s : State} (hb : s.busy = false) (hp : s.phase ≠ .error) (x : Sym) :
    exec (.cnt x) s = .next (s.cntBody x) := by
  rw [exec_eq_issueRule, issueRule_encode_of_idle hb hp]
  rfl

/-- R52, the count. -/
theorem exec_cnt_counts {s : State} (hb : s.busy = false) (hp : s.phase = .count) (ht : s.total ≠ 0xFFFFFFFF#32)
    (x : Sym) : exec (.cnt x) s = .next (s.countSymbol x) := by
  rw [exec_cnt_of_idle hb (by simp [hp]), State.cntBody, if_neg (by simp [hp]), if_neg ht]

/-- R52, CNT outside COUNT. -/
theorem exec_cnt_sequence {s : State} (hb : s.busy = false) (hp : s.phase = .ready) (x : Sym) :
    exec (.cnt x) s = .next (s.raise .sequence (encode (.cnt x))) := by
  rw [exec_cnt_of_idle hb (by simp [hp]), State.cntBody, if_pos (by simp [hp])]

/-- R52, TOTAL at its maximum: no counter changes. -/
theorem exec_cnt_freqOverflow {s : State} (hb : s.busy = false) (hp : s.phase = .count)
    (ht : s.total = 0xFFFFFFFF#32) (x : Sym) :
    exec (.cnt x) s = .next (s.raise .freqOverflow (encode (.cnt x))) := by
  rw [exec_cnt_of_idle hb (by simp [hp]), State.cntBody, if_neg (by simp [hp]), if_pos ht]

/-- R96: phase ERROR discards CNT. -/
theorem exec_cnt_discarded {s : State} (hb : s.busy = false) (hp : s.phase = .error) (x : Sym) :
    exec (.cnt x) s = .next s := by
  have hclr : encode (.cnt x) ≠ encode .clr := encode_injective.ne nofun
  have hestart : encode (.cnt x) ≠ encode .estart := encode_injective.ne nofun
  rw [exec_eq_issueRule, issueRule_of_error hb hp hclr, if_neg fun h => hestart h.1]

/-- R49: CNT while busy is an overrun. -/
theorem exec_cnt_overrun {s : State} (hb : s.busy = true) (x : Sym) :
    exec (.cnt x) s = .next (s.overrun (encode (.cnt x))) := by
  have hnop : encode (.cnt x) ≠ encode .nop := encode_injective.ne nofun
  have hclr : encode (.cnt x) ≠ encode .clr := encode_injective.ne nofun
  rw [exec_eq_issueRule, issueRule_of_busy hb hnop hclr]

/-- Settles O13: `exec_cnt_counts` and the facts of one count, then CNT's other four outcomes. -/
theorem cntCountsOneSymbol : Obligations.CntCountsOneSymbol := by
  unfold Obligations.CntCountsOneSymbol
  simp only [← encode_cnt]
  refine ⟨fun x => decode_encode _, fun x s hb hp ht => ?count, fun x s hb hp => exec_cnt_sequence hb hp x,
    fun x s hb hp ht => exec_cnt_freqOverflow hb hp ht x, fun x s hb hp => exec_cnt_discarded hb hp x,
    fun x s hb => exec_cnt_overrun hb x, ?reset⟩
  case count =>
    refine ⟨s.countSymbol x, exec_cnt_counts hb hp ht x, by simp, fun y hy => by simp [freqOf_setFreq, hy], rfl, rfl,
      fun hok => ?_⟩
    obtain ⟨hfreq, htotal⟩ := hok.succ_no_wrap ht x
    have hne : freqOf s.fc x + 1#32 ≠ 0#32 := fun h => by simp [h] at hfreq
    exact ⟨by simpa using hfreq, htotal, State.nsym_countSymbol hne⟩
  case reset =>
    have hzero : freqOf State.reset.fc 0x61#8 = 0#32 := freqOf_cleared _
    refine ⟨_, exec_cnt_counts rfl rfl (by decide) _, by simp [hzero], rfl, ?_⟩
    rw [State.nsym_countSymbol (by simp [hzero]), if_pos hzero, nsym_reset]

/-! ### A stream -/

/-- The state after counting every symbol of a stream, first symbol first (R53). -/
def State.countStream (s : State) (xs : List Sym) : State :=
  match xs with
  | [] => s
  | x :: xs => (s.countSymbol x).countStream xs

@[simp] theorem State.countStream_cons (s : State) (x : Sym) (xs : List Sym) :
    s.countStream (x :: xs) = (s.countSymbol x).countStream xs := rfl

/-- Counting a stream touches the counters and TOTAL only. -/
theorem State.countStream_eq (s : State) (xs : List Sym) :
    s.countStream xs = { s with fc := (s.countStream xs).fc, total := (s.countStream xs).total } := by
  induction xs generalizing s with
  | nil => rfl
  | cons x xs ih => exact ih (s.countSymbol x)

/-- A counter rises by the symbol's occurrences, in 32-bit arithmetic (R53). -/
theorem State.freqOf_countStream (s : State) (xs : List Sym) (y : Sym) :
    freqOf (s.countStream xs).fc y = freqOf s.fc y + BitVec.ofNat 32 (xs.count y) := by
  induction xs generalizing s with
  | nil => simp [State.countStream]
  | cons x xs ih =>
    rw [State.countStream_cons, ih, State.countSymbol_fc, freqOf_setFreq]
    by_cases h : y = x
    · rw [if_pos h, h, List.count_cons_self, BitVec.add_assoc, BitVec.ofNat_add, BitVec.add_comm 1#32]
    · rw [if_neg h, List.count_cons_of_ne (Ne.symm h)]

/-- TOTAL rises by the length of the stream, in 32-bit arithmetic (R53). -/
theorem State.total_countStream (s : State) (xs : List Sym) :
    (s.countStream xs).total = s.total + BitVec.ofNat 32 xs.length := by
  induction xs generalizing s with
  | nil => simp [State.countStream]
  | cons x xs ih =>
    rw [State.countStream_cons, ih, State.countSymbol_total, List.length_cons, BitVec.add_assoc, BitVec.ofNat_add,
      BitVec.add_comm 1#32]

/-- R53: occurrences and length are all that counting keeps of a stream, and they do not depend on its order. -/
theorem State.countStream_perm (s : State) {xs ys : List Sym} (h : ys.Perm xs) :
    s.countStream ys = s.countStream xs := by
  have hfc : (s.countStream ys).fc = (s.countStream xs).fc := by
    ext1 y
    rw [s.freqOf_countStream, s.freqOf_countStream, h.count_eq]
  have htotal : (s.countStream ys).total = (s.countStream xs).total := by
    rw [s.total_countStream, s.total_countStream, h.length_eq]
  rw [s.countStream_eq ys, s.countStream_eq xs, hfc, htotal]

/-- The pending events of a stream: one CMD write of CNT for each symbol, then the rest. -/
def cntEvents (c : Config) (xs : List Sym) (rest : List Event) : List Event :=
  xs.map (fun x => hostWrite c 0x04 (encode (.cnt x))) ++ rest

/-- The step of a pending CNT that counts (R12, R52). -/
theorem step_cnt {s : State} {x : Sym} {rest : List Event} (hb : s.busy = false) (hp : s.phase = .count)
    (ht : s.total ≠ 0xFFFFFFFF#32) (he : s.events = hostWrite s.cfg 0x04 (encode (.cnt x)) :: rest) :
    step s = .next { s.countSymbol x with events := rest } :=
  calc step s
    _ = busWrite 0x04 (encode (.cnt x)) { s with events := rest } := step_hostWrite (by decide) (by decide) he
    _ = exec (.cnt x) { s with events := rest } := issue_encode _ _
    _ = .next { s.countSymbol x with events := rest } := exec_cnt_counts (s := { s with events := rest }) hb hp ht x

/-- While TOTAL cannot reach its maximum before the last symbol, the run counts the whole stream. -/
theorem run_cntEvents (xs : List Sym) (rest : List Event) (s : State) (hb : s.busy = false) (hp : s.phase = .count)
    (ht : s.total.toNat + xs.length < 2 ^ 32) :
    core.run xs.length { s with events := cntEvents s.cfg xs rest }
      = .next { s.countStream xs with events := rest } := by
  induction xs generalizing s with
  | nil => rfl
  | cons x xs ih =>
    rw [List.length_cons] at ht
    have hmax : s.total ≠ 0xFFFFFFFF#32 := by bv_omega
    have htotal : (s.countSymbol x).total.toNat + xs.length < 2 ^ 32 := by
      have hsucc : (s.total + 1#32).toNat = s.total.toNat + 1 := by bv_omega
      rw [State.countSymbol_total, hsucc]
      omega
    have hstep : step { s with events := cntEvents s.cfg (x :: xs) rest }
        = .next { s.countSymbol x with events := cntEvents s.cfg xs rest } := step_cnt hb hp hmax rfl
    exact (core_run_next _ hstep).trans (ih (s.countSymbol x) hb hp htotal)

/-- Settles O57: `run_cntEvents`; from cleared counters nothing wraps, and `countStream_perm` gives the other order. -/
theorem countsAreOccurrences : Obligations.CountsAreOccurrences := by
  intro s xs ys rest hb hp hfc htotal hlen hperm
  have run := fun zs (hz : List.length zs < 2 ^ 32) => run_cntEvents zs rest s hb hp (by simpa [htotal] using hz)
  refine ⟨{ s.countStream xs with events := rest }, run xs hlen, fun x => ?freq, ?total, rfl, ?phase, ?perm⟩
  case freq =>
    have hcount : xs.count x < 2 ^ 32 := Nat.lt_of_le_of_lt List.count_le_length hlen
    simpa [s.freqOf_countStream, hfc] using hcount
  case total => simpa [s.total_countStream, htotal] using hlen
  case phase => rw [s.countStream_eq]; exact hp
  case perm =>
    rw [← s.countStream_perm hperm]
    exact run ys (hperm.length_eq ▸ hlen)

end Sys2Proof.Machine
end

section
/-! The tree builder (R58 to R67): keys and extraction, the merges and the root, the finished tree, its frequencies. -/

namespace Sys2Proof.Machine

/-! ### Keys and extraction -/

/-- The key compares frequencies first, then ids (R58). -/
theorem nodeKey_lt_iff (nm : NodeMem) (a b : NodeId) :
    nodeKey nm a < nodeKey nm b ↔ (readNode nm a).freq.toNat < (readNode nm b).freq.toNat ∨
      (readNode nm a).freq = (readNode nm b).freq ∧ a.toNat < b.toNat := by
  have ha := a.isLt
  have hb := b.isLt
  rw [← BitVec.toNat_inj]
  unfold nodeKey
  omega

/-- The id is part of the key, so no two nodes have one key (R58, R59). -/
theorem nodeKey_injective (nm : NodeMem) : Function.Injective (nodeKey nm) := by
  intro a b h
  have ha := a.isLt
  have hb := b.isLt
  unfold nodeKey at h
  exact BitVec.eq_of_toNat_eq (by omega)

theorem toNat_leafId_lt (x : Sym) : (leafId x).toNat < 256 := by
  rw [toNat_leafId]
  exact x.isLt

/-- Settles O44: by `nodeKey_lt_iff`, every tie between frequencies is one between ids. -/
theorem tieBreakOrder : Obligations.TieBreakOrder := by
  refine ⟨fun nm a b h => (nodeKey_lt_iff nm a b).mpr (.inl h), fun nm x y hf hlt => ?leaves,
    fun nm x k hk hf => ?mixed, fun nm j k hjk hk hf => ?internal⟩
  case leaves => exact (nodeKey_lt_iff ..).mpr (.inr ⟨hf, by simpa using hlt⟩)
  case mixed =>
    have hx := toNat_leafId_lt x
    refine (nodeKey_lt_iff ..).mpr (.inr ⟨hf, ?_⟩)
    rw [toNat_internalId k (by omega)]
    omega
  case internal =>
    refine (nodeKey_lt_iff ..).mpr (.inr ⟨hf, ?_⟩)
    rw [toNat_internalId j (by omega), toNat_internalId k (by omega)]
    omega

/-- From a working set without repeats an extraction takes the one node whose key is below every other (R59). -/
theorem exists_extractMin {work : List NodeId} (nm : NodeMem) (hn : work.Nodup) (hne : work ≠ []) :
    ∃ a rest, extractMin nm work = some (a, rest) ∧ (a :: rest).Perm work ∧
      ∀ b ∈ rest, nodeKey nm a < nodeKey nm b := by
  obtain ⟨⟨a, rest⟩, h⟩ := Option.ne_none_iff_exists'.mp (mt extractMin_eq_none.mp hne)
  obtain ⟨hperm, hle⟩ := extractMin_spec h
  have ha : a ∉ rest := (List.nodup_cons.mp (hperm.nodup_iff.mpr hn)).1
  refine ⟨a, rest, h, hperm, fun b hb => ?_⟩
  exact (hle b (hperm.subset (.tail a hb))).lt_of_ne fun e => ha (nodeKey_injective nm e ▸ hb)

theorem mergeOk_turn (fc : FreqTable) (n : Nat) : MergeOk fc (mergeLoop n (mergeStart fc)) :=
  mergeOk_loop fc n _ (mergeOk_start fc)

/-- Settles O45: W has no repeats by `MergeOk.nodup`, and keys are injective. -/
theorem extractionTakesTheLeastKey : Obligations.ExtractionTakesTheLeastKey := by
  intro fc n
  have hn : (mergeLoop n (mergeStart fc)).work.Nodup := (mergeOk_turn fc n).nodup.of_append_left
  exact ⟨hn, fun _ _ _ _ e => nodeKey_injective _ e, exists_extractMin _ hn⟩

/-! ### The merges and the root -/

/-- Every id of W is an id of the node memory (R63). -/
theorem MergeOk.work_le {fc : FreqTable} {m : MergeState} (h : MergeOk fc m) : ∀ id ∈ m.work, id.toNat ≤ 510 := by
  intro id hid
  have hpos := List.length_pos_of_mem hid
  have hcount := h.count
  have hle := length_presentSyms_le fc
  have hlt := h.work_lt id hid
  omega

/-- The id says whether the tree below it is one leaf or has at least two (R62). -/
theorem Represents.internal_iff {nm : NodeMem} {id : NodeId} {t : CodeTree} (h : Represents nm id t) :
    256 ≤ id.toNat ↔ 2 ≤ t.leaves.length := by
  cases h with
  | leaf x =>
    have hx := toNat_leafId_lt x
    simp only [CodeTree.leaves, List.length_singleton]
    omega
  | node _ l r h256 _ _ =>
    have hl := List.length_pos_iff.mpr l.leaves_ne_nil
    have hr := List.length_pos_iff.mpr r.leaves_ne_nil
    simp only [CodeTree.leaves, List.length_append]
    omega

/-- A tree with one leaf is that leaf (R62). -/
theorem Represents.eq_leafId {nm : NodeMem} {id : NodeId} {t : CodeTree} {x : Sym} (h : Represents nm id t)
    (hx : t.leaves = [x]) : id = leafId x := by
  have hlt : id.toNat < 256 := by
    have hint := h.internal_iff
    rw [hx, List.length_singleton] at hint
    omega
  obtain ⟨y, rfl, rfl⟩ := h.leaf_iff.mp hlt
  rw [List.singleton_inj.mp hx]

/-- Settles O46: `MergeOk.count` at each turn, and the one tree that `buildTree_spec` leaves. -/
theorem mergeCounts : Obligations.MergeCounts := by
  intro fc hpos
  obtain ⟨r, t, hwork, hrep, hleaves, -⟩ := buildTree_spec fc (List.ne_nil_of_length_pos hpos)
  refine ⟨?merges, fun n => ?turn, r, hwork, by simp [MergeState.root, hwork], ?internal, fun x hx => ?leaf⟩
  case merges =>
    have hcount := (mergeOk_build fc).count
    rw [hwork, List.length_singleton] at hcount
    omega
  case turn =>
    have hok := mergeOk_turn fc n
    refine ⟨?_, hok.count, fun id hid => ⟨hok.work_lt id hid, hok.work_le id hid⟩⟩
    have hcount := hok.count
    have hle := length_presentSyms_le fc
    omega
  case internal => rw [hrep.internal_iff, hleaves.length_eq]
  case leaf => exact hrep.eq_leafId (List.perm_singleton.mp (hx ▸ hleaves))

/-! ### The finished tree -/

/-- A BUILD that has a root has present symbols, and the root is all that is left in W (R61). -/
theorem buildTree_work_of_root {fc : FreqTable} {r : NodeId} (h : (buildTree fc).root = some r) :
    (buildTree fc).work = [r] := by
  have hmem : r ∈ (buildTree fc).work := List.mem_of_head? h
  have hpos : 0 < (presentSyms fc).length := by
    have hlen := List.length_pos_of_mem hmem
    have hcount := (mergeOk_build fc).count
    omega
  obtain ⟨r', -, hwork, -⟩ := buildTree_spec fc (List.ne_nil_of_length_pos hpos)
  rw [hwork, List.mem_singleton] at hmem
  rw [hwork, hmem]

/-- Settles O48: `MergeOk.links` and `MergeOk.nodup` where the root alone is left in W. -/
theorem strictBinaryTree : Obligations.StrictBinaryTree := by
  intro fc r hroot
  have hwork := buildTree_work_of_root hroot
  have hok := mergeOk_build fc
  have hlinks := hok.links
  have hnodup := hok.nodup
  have hcount := hok.count
  rw [hwork] at hlinks hnodup hcount
  rw [List.length_singleton, Nat.add_comm] at hcount
  exact ⟨hnodup, hlinks, by simpa [MergeState.internalIds] using hcount⟩

/-! ### Frequencies -/

/-- Below an internal node stand the trees of its two links (R65). -/
theorem Represents.exists_children {nm : NodeMem} {id : NodeId} {t : CodeTree} (h : Represents nm id t)
    (h256 : 256 ≤ id.toNat) :
    ∃ l r, t = .node l r ∧ Represents nm (readNode nm id).left l ∧ Represents nm (readNode nm id).right r := by
  cases h with
  | leaf x => exact absurd (toNat_leafId_lt x) (by omega)
  | node _ l r _ hl hr => exact ⟨l, r, rfl, hl, hr⟩

/-- The tree below a link of an internal node: its leaves are among the internal node's (R65). -/
theorem Represents.child {nm : NodeMem} {p id : NodeId} {t : CodeTree} (h : Represents nm p t) (hp : 256 ≤ p.toNat)
    (hid : id ∈ [(readNode nm p).left, (readNode nm p).right]) :
    ∃ c, Represents nm id c ∧ c.leaves.Sublist t.leaves := by
  obtain ⟨l, r, rfl, hl, hr⟩ := h.exists_children hp
  rcases List.mem_pair.mp hid with rfl | rfl
  · exact ⟨l, hl, List.sublist_append_left ..⟩
  · exact ⟨r, hr, List.sublist_append_right ..⟩

/-- Where one root is left, every internal node is the root of a tree whose leaves are among the root's: it is the root
or the child of a node made later. -/
theorem MergeOk.internal_represents {fc : FreqTable} {m : MergeState} (h : MergeOk fc m) {r : NodeId} {t : CodeTree}
    (hwork : m.work = [r]) (hr : Represents m.nm r t) (id : NodeId) (hid : id ∈ m.internalIds) :
    ∃ c, Represents m.nm id c ∧ c.leaves.Sublist t.leaves := by
  have hmem := h.links.symm.subset (List.mem_append_right _ hid)
  rw [hwork, List.singleton_append, List.mem_cons] at hmem
  rcases hmem with rfl | hchild
  · exact ⟨t, hr, .refl _⟩
  · obtain ⟨p, hp, hlink⟩ := List.mem_flatMap.mp hchild
    obtain ⟨h256, hlt⟩ := internalIds_toNat m h.k_le p hp
    have hbelow : id.toNat < p.toNat := by
      obtain ⟨hleft, hright⟩ := h.down p h256 hlt
      rcases List.mem_pair.mp hlink with rfl | rfl
      · exact hleft
      · exact hright
    obtain ⟨tp, htp, hsub⟩ := h.internal_represents hwork hr p hp
    obtain ⟨c, hc, hcsub⟩ := htp.child h256 hlink
    exact ⟨c, hc, hcsub.trans hsub⟩
termination_by 512 - id.toNat
decreasing_by
  have := id.isLt
  omega

/-- R64: a tree that weighs less than 2^32 has its weight as the root's frequency, without a wrap. -/
theorem MergeOk.toNat_freq {fc : FreqTable} {m : MergeState} (h : MergeOk fc m) {id : NodeId} {t : CodeTree}
    (hr : Represents m.nm id t) (hid : id.toNat < 256 + m.k) (hw : t.weight fc < 2 ^ 32) :
    (readNode m.nm id).freq.toNat = t.weight fc := by
  rw [h.freq_eq_weight hr hid, BitVec.toNat_ofNat, Nat.mod_eq_of_lt hw]

theorem CodeTree.weight_le_of_sublist (fc : FreqTable) {c t : CodeTree} (h : c.leaves.Sublist t.leaves) :
    c.weight fc ≤ t.weight fc :=
  (h.map _).sum_le_sum (by simp)

/-- R64 at one internal node: the sum of the children's frequencies does not wrap. -/
theorem MergeOk.internal_freq {fc : FreqTable} {m : MergeState} (h : MergeOk fc m) {id : NodeId} {t : CodeTree}
    (hr : Represents m.nm id t) (h256 : 256 ≤ id.toNat) (hid : id.toNat < 256 + m.k) (hw : t.weight fc < 2 ^ 32) :
    (readNode m.nm id).freq.toNat
      = (readNode m.nm (readNode m.nm id).left).freq.toNat + (readNode m.nm (readNode m.nm id).right).freq.toNat := by
  rw [h.toNat_freq hr hid hw]
  obtain ⟨l, r, rfl, hleft, hright⟩ := hr.exists_children h256
  obtain ⟨hl_lt, hr_lt⟩ := h.down id h256 hid
  rw [CodeTree.weight_node] at hw ⊢
  rw [h.toNat_freq hleft (by omega) (by omega), h.toNat_freq hright (by omega) (by omega)]

/-- Settles O47: each internal node's tree has leaves among the root's, so it weighs at most the counters' sum. -/
theorem frequencyConservation : Obligations.FrequencyConservation := by
  intro fc hsum hpos
  have hne := List.ne_nil_of_length_pos hpos
  refine ⟨fun id hid => ?internal, ?root⟩
  case internal =>
    obtain ⟨r, t, hwork, hrep, hleaves, -⟩ := buildTree_spec fc hne
    have hok := mergeOk_build fc
    obtain ⟨h256, hlt⟩ := internalIds_toNat _ hok.k_le id hid
    obtain ⟨c, hc, hsub⟩ := hok.internal_represents hwork hrep id hid
    have hw : c.weight fc < 2 ^ 32 := by
      have hle := CodeTree.weight_le_of_sublist fc hsub
      rw [CodeTree.weight_eq_freqSum hleaves] at hle
      omega
    have hdepth : c.depth < 256 := by
      have hlen := hsub.length_le
      rw [hleaves.length_eq] at hlen
      have hle := length_presentSyms_le fc
      have hdepth := c.depth_lt
      omega
    refine ⟨hok.internal_freq hc h256 hlt hw, ?_⟩
    rw [hc.leavesUnder_eq 256 hdepth]
    exact hok.toNat_freq hc hlt hw
  case root => rw [builtRootFreq_eq_freqSum hne, BitVec.toNat_ofNat, Nat.mod_eq_of_lt hsum]

/-! ### Determinism -/

/-- What a BUILD's completion commits is made of the counters alone (R67, R68). -/
theorem engineStep_build {s t : State} (hi : s.inflight = .build) (h : engineStep s = .next t) :
    t.ct = builtTable s.fc ∧ t.rootFreq = builtRootFreq s.fc := by
  obtain ⟨-, rfl⟩ := (engineStep_eq_next_iff s t).mp h
  rw [s.complete_eq, s.commit_build hi]
  exact ⟨rfl, rfl⟩

/-- Settles O50: `engineStep_build` on both sides. -/
theorem buildIsDeterministic : Obligations.BuildIsDeterministic := by
  intro s s' t t' hfc hi hi' h h'
  obtain ⟨hct, hroot⟩ := engineStep_build hi h
  obtain ⟨hct', hroot'⟩ := engineStep_build hi' h'
  rw [hct, hct', hroot, hroot', hfc]
  exact ⟨rfl, rfl⟩

end Sys2Proof.Machine
end

section
/-! The code-table memory (R72 to R77): what writes it, the codes as paths of one tree, and their lengths. -/

namespace Sys2Proof.Machine

/-! ### What writes the table -/

/-- EncCommit leaves the table; only BuildCommit writes it (R77). -/
theorem State.commit_ct (s : State) (h : s.inflight ≠ .build) : s.commit.ct = s.ct := by
  unfold State.commit
  split
  · rfl
  · contradiction
  · rfl

/-- Of the commands only CLR changes the table at its CMD write (R77). -/
theorem IssueEffect.ct_cases {w : Word} {s t : State} (he : IssueEffect w s t) : t.ct = s.ct ∨ w = encode .clr := by
  cases he with
  | clear h => exact .inr (eq_encode_of_decode h)
  | nothing | overrun | raise | count | build | startPass | enc => exact .inl rfl

theorem busRead_ct (off : Nat) (s : State) : (busRead off s).ct = s.ct := by
  by_cases hoff : off = 0x38
  · subst hoff
    rfl
  · rw [busRead_other off s hoff, State.logRead_ct]

/-- Only a BUILD's completion, CLR and reset change the table at a step (R77). -/
theorem step_ct_cases {s t : State} (h : step s = .next t) :
    t.ct = s.ct ∨ (s.nextIsEngine = true ∧ s.inflight = .build) ∨ s.nextCommand = some (encode .clr) ∨
      s.nextIsReset = true := by
  cases step_effect h with
  | engine hn _ =>
    by_cases hi : s.inflight = .build
    · exact .inr (.inl ⟨hn, hi⟩)
    · left
      rw [State.complete_eq]
      exact s.dropEvent.commit_ct hi
  | reset hn => exact .inr (.inr (.inr hn))
  | read off _ => exact .inl (busRead_ct off s.dropEvent)
  | write off v _ hn hw =>
    rcases busWrite_cases off v s.dropEvent with ⟨rfl, e⟩ | ⟨-, e⟩ | ⟨-, -, e⟩
    · rcases (issue_effect (e ▸ hw)).ct_cases with hct | rfl
      · exact .inl hct
      · exact .inr (.inr (.inl (nextCommand_of_nextWrite hn)))
    · cases e.symm.trans hw
      exact .inl rfl
    · cases e.symm.trans hw
      exact .inl rfl

/-- A BUILD is in flight in COUNT only, where no table is valid (R21, R23). -/
theorem StateInv.inflight_ne_build {s : State} (h : StateInv s) (ht : s.tvalid = true) : s.inflight ≠ .build := by
  intro hi
  obtain ⟨hno, -⟩ := h.count_phase (h.long.build_phase hi)
  simp [hno] at ht

/-- Settles O42: `step_ct_cases`; while a table is valid no BUILD is in flight. -/
theorem codeTableWriters : Obligations.CodeTableWriters := by
  refine ⟨fun s t h hne => (step_ct_cases h).resolve_left hne, fun s t hs ht h hne => ?_⟩
  rcases (step_ct_cases h).resolve_left hne with ⟨-, hi⟩ | hclear
  · exact absurd hi (hs.inflight_ne_build ht)
  · exact hclear

/-! ### Codes as paths of a tree -/

/-- R70: the only symbol of a one-symbol table has code "0". -/
theorem builtTable_of_singleton {fc : FreqTable} {x : Sym} (h : presentSyms fc = [x]) :
    entryOf (builtTable fc) x = CtEntry.ofBits [false] := by
  obtain ⟨r, t, -, -, hleaves, -, -, hleaf, -⟩ := builtTable_entry fc (by simp [h])
  rw [h] at hleaves
  cases t with
  | leaf y =>
    obtain rfl : y = x := by simpa [CodeTree.leaves] using hleaves
    exact hleaf y rfl
  | node l l' =>
    have hlen := hleaves.length_eq
    have hl := List.length_pos_iff.mpr l.leaves_ne_nil
    have hr := List.length_pos_iff.mpr l'.leaves_ne_nil
    simp only [CodeTree.leaves, List.length_append, List.length_singleton] at hlen
    omega

/-- R69, R73: with n ≥ 2 present symbols the table holds the paths of the finished tree, each of 1 to n − 1 bits. -/
theorem builtTable_codes {fc : FreqTable} (h : 2 ≤ (presentSyms fc).length) :
    ∃ r t, (buildTree fc).root = some r ∧ Represents (buildTree fc).nm r t ∧ t.leaves.Perm (presentSyms fc) ∧
      ∀ c ∈ t.codes [], entryOf (builtTable fc) c.1 = CtEntry.ofBits c.2 ∧ 1 ≤ c.2.length ∧
        c.2.length ≤ (presentSyms fc).length - 1 := by
  obtain ⟨r, t, hroot, hrep, hleaves, -, hnode, -, -⟩ := builtTable_entry fc (List.ne_nil_of_length_pos (by omega))
  refine ⟨r, t, hroot, hrep, hleaves, fun c hc => ?_⟩
  cases t with
  | leaf y =>
    have hlen := hleaves.length_eq
    simp only [CodeTree.leaves, List.length_singleton] at hlen
    omega
  | node l l' =>
    have hle := ((CodeTree.node l l').codes_prefix [] c hc).2
    have hdepth := (CodeTree.node l l').depth_lt
    rw [hleaves.length_eq] at hdepth
    rw [List.length_nil] at hle
    exact ⟨hnode l l' rfl c.1 c.2 hc, CodeTree.length_pos_of_mem_codes_node hc, by omega⟩

/-- A BUILD without a present symbol leaves the cleared table (log entry 7). -/
theorem builtTable_of_nil {fc : FreqTable} (h : presentSyms fc = []) : builtTable fc = clearedTable := by
  have hcount := (mergeOk_build fc).count
  rw [h, List.length_nil] at hcount
  have hwork : (buildTree fc).work = [] := List.length_eq_zero_iff.mp (by omega)
  simp [builtTable, MergeState.root, hwork]

theorem builtTable_of_absent {fc : FreqTable} {x : Sym} (h : freqOf fc x = 0#32) :
    entryOf (builtTable fc) x = CtEntry.empty := by
  by_cases hnil : presentSyms fc = []
  · rw [builtTable_of_nil hnil, entryOf_cleared]
  · obtain ⟨-, -, -, -, -, -, -, -, habsent⟩ := builtTable_entry fc hnil
    exact habsent x (by simp [h])

/-- A present symbol's entry is written for a code of at least 1 bit, and of at most n − 1 bits where n ≥ 2 (R73). -/
theorem builtTable_of_present {fc : FreqTable} {x : Sym} (h : freqOf fc x ≠ 0#32) :
    ∃ q, entryOf (builtTable fc) x = CtEntry.ofBits q ∧ 1 ≤ q.length ∧
      q.length ≤ max 1 ((presentSyms fc).length - 1) := by
  have hx := (mem_presentSyms fc x).mpr h
  have hpos := List.length_pos_of_mem hx
  by_cases h1 : (presentSyms fc).length = 1
  · obtain ⟨y, hy⟩ := List.length_eq_one_iff.mp h1
    obtain rfl : x = y := by simpa [hy] using hx
    exact ⟨[false], builtTable_of_singleton hy, by simp, by simp⟩
  · obtain ⟨-, t, -, -, hleaves, hcodes⟩ := builtTable_codes (fc := fc) (by omega)
    obtain ⟨q, hq⟩ := CodeTree.exists_code_of_mem_leaves [] (hleaves.symm.subset hx)
    obtain ⟨hentry, hq1, hqn⟩ := hcodes _ hq
    exact ⟨q, hentry, hq1, hqn.trans (le_max_right ..)⟩

/-- R73: the bounds on a present symbol's code length, n ≤ 256 among them. -/
theorem builtTable_len_bounds {fc : FreqTable} {x : Sym} (h : freqOf fc x ≠ 0#32) :
    1 ≤ (entryOf (builtTable fc) x).len.toNat ∧
      (entryOf (builtTable fc) x).len.toNat ≤ max 1 ((presentSyms fc).length - 1) := by
  obtain ⟨q, hentry, hpos, hle⟩ := builtTable_of_present h
  have hn := length_presentSyms_le fc
  rw [hentry, CtEntry.ofBits_len q (by omega)]
  exact ⟨hpos, hle⟩

/-- R17: stored bits beyond the code's length are 0. -/
theorem builtTable_unused (fc : FreqTable) (x : Sym) (i : Nat) (hi : (entryOf (builtTable fc) x).len.toNat ≤ i) :
    (entryOf (builtTable fc) x).code.getLsbD i = false := by
  by_cases h : freqOf fc x = 0#32
  · simp [builtTable_of_absent h, CtEntry.empty]
  · obtain ⟨q, hentry, -, hle⟩ := builtTable_of_present h
    have hn := length_presentSyms_le fc
    rw [hentry, CtEntry.ofBits_len q (by omega)] at hi
    rw [hentry, CtEntry.ofBits_unused q i hi]

/-- Settles O52, from what an entry of a present and of an absent symbol is. -/
theorem tableCoverage : Obligations.TableCoverage := by
  intro fc x
  refine ⟨fun h => (builtTable_len_bounds h).1, fun h => ?_, builtTable_unused fc x⟩
  rw [builtTable_of_absent h]
  exact ⟨rfl, rfl⟩

/-- Settles O53: a strict binary tree with n leaves has depth at most n − 1, and there are 256 symbols. -/
theorem codeLengthBounds : Obligations.CodeLengthBounds := by
  intro fc x h
  obtain ⟨hpos, hle⟩ := builtTable_len_bounds h
  have hn := length_presentSyms_le fc
  exact ⟨fun h2 => ⟨hpos, by omega, by omega⟩, fun h1 => by omega⟩

/-! ### No code begins another -/

/-- A code below a node that another one begins with is that other one (R74). The paths into the two subtrees
of a node differ in the node's own bit. -/
theorem CodeTree.eq_of_prefix {t : CodeTree} {p : List Bool} {c c' : Sym × List Bool} (hc : c ∈ t.codes p)
    (hc' : c' ∈ t.codes p) (h : c.2 <+: c'.2) : c = c' := by
  induction t generalizing p with
  | leaf x => exact (List.mem_singleton.mp hc).trans (List.mem_singleton.mp hc').symm
  | node l r hl hr =>
    have apart : ∀ (t u : CodeTree) (b d : Bool), c ∈ t.codes (p ++ [b]) → c' ∈ u.codes (p ++ [d]) → b = d := by
      intro t u b d ht hu
      have hb := (t.codes_prefix _ c ht).1.trans h
      have hd := (u.codes_prefix _ c' hu).1
      simpa using (List.prefix_of_prefix_length_le hb hd (by simp)).eq_of_length (by simp)
    rcases List.mem_append.mp hc with hcl | hcr <;> rcases List.mem_append.mp hc' with hcl' | hcr'
    · exact hl hcl hcl'
    · cases apart l r false true hcl hcr'
    · cases apart r l true false hcr hcl'
    · exact hr hcr hcr'

/-- The bits of a present symbol's entry are its path in the finished tree (R69). -/
theorem builtTable_bits {fc : FreqTable} (h : 2 ≤ (presentSyms fc).length) :
    ∃ r t, (buildTree fc).root = some r ∧ Represents (buildTree fc).nm r t ∧ t.leaves.Perm (presentSyms fc) ∧
      ∀ c ∈ t.codes [], (entryOf (builtTable fc) c.1).bits = c.2 := by
  obtain ⟨r, t, hroot, hrep, hleaves, hcodes⟩ := builtTable_codes h
  refine ⟨r, t, hroot, hrep, hleaves, fun c hc => ?_⟩
  obtain ⟨hentry, -, hle⟩ := hcodes c hc
  have hn := length_presentSyms_le fc
  rw [hentry, CtEntry.ofBits_bits c.2 (by omega)]

theorem two_le_length_present {fc : FreqTable} {a b : Sym} (ha : freqOf fc a ≠ 0#32) (hb : freqOf fc b ≠ 0#32)
    (hne : a ≠ b) : 2 ≤ (presentSyms fc).length := by
  have hsub : [a, b] ⊆ presentSyms fc := by simp [ha, hb]
  exact (List.subperm_of_subset (by simp [hne]) hsub).length_le

/-- Two present symbols' codes in the finished tree (R69). -/
theorem exists_paths {fc : FreqTable} {a b : Sym} (ha : freqOf fc a ≠ 0#32) (hb : freqOf fc b ≠ 0#32) (hne : a ≠ b) :
    ∃ r t, (buildTree fc).root = some r ∧ Represents (buildTree fc).nm r t ∧
      (a, (entryOf (builtTable fc) a).bits) ∈ t.codes [] ∧ (b, (entryOf (builtTable fc) b).bits) ∈ t.codes [] := by
  obtain ⟨r, t, hroot, hrep, hleaves, hbits⟩ := builtTable_bits (two_le_length_present ha hb hne)
  have mem : ∀ x, freqOf fc x ≠ 0#32 → (x, (entryOf (builtTable fc) x).bits) ∈ t.codes [] := by
    intro x hx
    obtain ⟨q, hq⟩ := CodeTree.exists_code_of_mem_leaves [] (hleaves.symm.subset ((mem_presentSyms fc x).mpr hx))
    rwa [hbits _ hq]
  exact ⟨r, t, hroot, hrep, mem a ha, mem b hb⟩

/-- Settles O54, by `CodeTree.eq_of_prefix` in the finished tree. -/
theorem tableIsPrefixFree : Obligations.TableIsPrefixFree := by
  intro fc a b ha hb hne hpre
  obtain ⟨-, t, -, -, hca, hcb⟩ := exists_paths ha hb hne
  exact hne (congrArg Prod.fst (CodeTree.eq_of_prefix hca hcb hpre))

/-! ### The Kraft sum -/

/-- R75: the two subtrees of a node at depth d share out its 2^(−d). -/
theorem CodeTree.kraft_sum (t : CodeTree) (p : List Bool) :
    ((t.codes p).map (fun c => ((1 : ℚ) / 2) ^ c.2.length)).sum = (1 / 2) ^ p.length := by
  induction t generalizing p with
  | leaf x => simp [CodeTree.codes]
  | node l r hl hr =>
    simp only [CodeTree.codes, List.map_append, List.sum_append, hl, hr, List.length_append, List.length_singleton]
    ring

/-- Settles O55: the sum over the present symbols is the sum over the codes of the finished tree. -/
theorem kraftSum : Obligations.KraftSum := by
  intro fc hpos
  split
  case isTrue h1 =>
    obtain ⟨x, hx⟩ := List.length_eq_one_iff.mp h1
    simp [hx, builtTable_of_singleton hx, CtEntry.ofBits_len]
  case isFalse h1 =>
    obtain ⟨-, t, -, -, hleaves, hbits⟩ := builtTable_bits (fc := fc) (by omega)
    have hlen : ∀ c ∈ t.codes [], (entryOf (builtTable fc) c.1).len.toNat = c.2.length := fun c hc => by
      rw [← CtEntry.length_bits, hbits c hc]
    calc ((presentSyms fc).map (fun x => ((1 : ℚ) / 2) ^ (entryOf (builtTable fc) x).len.toNat)).sum
      _ = ((t.codes []).map (fun c => ((1 : ℚ) / 2) ^ (entryOf (builtTable fc) c.1).len.toNat)).sum := by
        rw [← (hleaves.map _).sum_eq, ← t.codes_fst [], List.map_map]
        rfl
      _ = ((t.codes []).map (fun c => ((1 : ℚ) / 2) ^ c.2.length)).sum := by
        rw [List.map_congr_left fun c hc => by rw [hlen c hc]]
      _ = 1 := by simpa using t.kraft_sum []

end Sys2Proof.Machine
end

section
/-! R76: the merge loop extracts nodes in the order of their keys, so of two nodes of the finished tree the one of the
greater key is not deeper. -/

namespace Sys2Proof.Machine

/-! ### One merge -/

/-- The two links of an internal node. -/
def childLinks (nm : NodeMem) (id : NodeId) : List NodeId := [(readNode nm id).left, (readNode nm id).right]

/-- A merge takes two nodes out of W, so an internal id is free for the new one (R63). -/
theorem MergeOk.k_lt {fc : FreqTable} {m : MergeState} (h : MergeOk fc m) {a b : NodeId} {rest : List NodeId}
    (hp : (a :: b :: rest).Perm m.work) : m.k < 255 := by
  have hlen := hp.length_eq
  have hcount := h.count
  have hle := length_presentSyms_le fc
  simp only [List.length_cons] at hlen
  omega

theorem readNode_mergeNodes_old {m : MergeState} (hk : m.k < 255) (a b : NodeId) (rest : List NodeId) {i : NodeId}
    (hi : i.toNat < 256 + m.k) : readNode (mergeNodes m a b rest).nm i = readNode m.nm i := by
  refine readNode_writeNode_of_ne _ _ _ _ fun e => ?_
  rw [e, toNat_internalId m.k (by omega)] at hi
  exact absurd hi (lt_irrefl _)

theorem readNode_mergeNodes_new {m : MergeState} (hk : m.k < 255) (a b : NodeId) (rest : List NodeId) :
    readNode (mergeNodes m a b rest).nm (internalId m.k)
      = { freq := (readNode m.nm a).freq + (readNode m.nm b).freq, left := a, right := b } := by
  refine readNode_writeNode_self _ _ _ ?_
  rw [toNat_internalId m.k (by omega)]
  omega

theorem nodeKey_mergeNodes_old {m : MergeState} (hk : m.k < 255) (a b : NodeId) (rest : List NodeId) {i : NodeId}
    (hi : i.toNat < 256 + m.k) : nodeKey (mergeNodes m a b rest).nm i = nodeKey m.nm i := by
  rw [nodeKey, readNode_mergeNodes_old hk a b rest hi, nodeKey]

theorem childLinks_mergeNodes_old {m : MergeState} (hk : m.k < 255) (a b : NodeId) (rest : List NodeId) {i : NodeId}
    (hi : i.toNat < 256 + m.k) : childLinks (mergeNodes m a b rest).nm i = childLinks m.nm i := by
  rw [childLinks, readNode_mergeNodes_old hk a b rest hi, childLinks]

theorem childLinks_mergeNodes_new {m : MergeState} (hk : m.k < 255) (a b : NodeId) (rest : List NodeId) :
    childLinks (mergeNodes m a b rest).nm (internalId m.k) = [a, b] := by
  rw [childLinks, readNode_mergeNodes_new hk]

/-- The internal ids after a merge are those before it and the new one. -/
theorem old_or_new_of_lt {m : MergeState} (hk : m.k < 255) {i : NodeId} (hi : i.toNat < 256 + (m.k + 1)) :
    i.toNat < 256 + m.k ∨ i = internalId m.k := by
  refine (Nat.lt_or_ge _ _).imp_right fun hge => BitVec.eq_of_toNat_eq ?_
  rw [toNat_internalId m.k (by omega)]
  omega

/-- The tree below a node of W weighs at most the sum of the counters (R64). -/
theorem MergeOk.work_represents {fc : FreqTable} {m : MergeState} (h : MergeOk fc m) {id : NodeId}
    (hid : id ∈ m.work) : ∃ t, Represents m.nm id t ∧ t.weight fc ≤ freqSum fc := by
  obtain ⟨ts, hts, hleaves⟩ := h.forest
  obtain ⟨n, hn, rfl⟩ := List.getElem_of_mem hid
  have hn' : n < ts.length := hts.length_eq ▸ hn
  refine ⟨ts[n], hts.get hn hn', ?_⟩
  rw [freqSum_eq_sum_present, ← (hleaves.map _).sum_eq]
  have hsub : ts[n].leaves.Sublist (ts.flatMap CodeTree.leaves) :=
    List.sublist_flatten_of_mem (List.mem_map_of_mem (List.getElem_mem hn'))
  exact (hsub.map _).sum_le_sum (by simp)

/-- The new node's key is above the key of both nodes it merges: its frequency does not wrap, and its id is newer. -/
theorem MergeOk.nodeKey_lt_new {fc : FreqTable} {m : MergeState} (h : MergeOk fc m) (hsum : freqSum fc < 2 ^ 32)
    {a b : NodeId} {rest : List NodeId} (hp : (a :: b :: rest).Perm m.work) :
    nodeKey m.nm b < nodeKey (Machine.mergeNodes m a b rest).nm (internalId m.k) := by
  have hk := h.k_lt hp
  have hid : (internalId m.k).toNat = 256 + m.k := toNat_internalId m.k (by omega)
  have ha := h.work_lt a (hp.subset (by simp))
  have hb := h.work_lt b (hp.subset (by simp))
  have hok := h.mergeNodes hp
  obtain ⟨t, ht, hw⟩ := hok.work_represents (List.mem_cons_self ..)
  have hfreq := hok.internal_freq ht (by omega) (by simp only [Machine.mergeNodes]; omega) (by omega)
  rw [readNode_mergeNodes_new hk] at hfreq
  simp only [readNode_mergeNodes_old hk a b rest ha, readNode_mergeNodes_old hk a b rest hb] at hfreq
  unfold nodeKey
  rw [readNode_mergeNodes_new hk, hfreq, hid]
  omega

/-! ### The order of the extractions -/

/-- At every turn the nodes extracted so far stand in the order of their keys, turn by turn, below all of W. The
children of internal node 256 + j are the nodes extracted at turn j (R61). -/
structure ExtractedInOrder (m : MergeState) : Prop where
  lt_work : ∀ i : NodeId, 256 ≤ i.toNat → i.toNat < 256 + m.k → ∀ c ∈ childLinks m.nm i, ∀ w ∈ m.work,
    nodeKey m.nm c < nodeKey m.nm w
  sorted : ∀ i j : NodeId, 256 ≤ i.toNat → i.toNat < j.toNat → j.toNat < 256 + m.k → ∀ c ∈ childLinks m.nm i,
    ∀ c' ∈ childLinks m.nm j, nodeKey m.nm c < nodeKey m.nm c'

theorem extractedInOrder_start (fc : FreqTable) : ExtractedInOrder (mergeStart fc) where
  lt_work i h256 hi := absurd hi (by simp only [mergeStart]; omega)
  sorted i j h256 hij hj := absurd hj (by simp only [mergeStart]; omega)

/-- The children of an internal node are made before it. -/
theorem MergeOk.child_lt {fc : FreqTable} {m : MergeState} (h : MergeOk fc m) {i c : NodeId} (h256 : 256 ≤ i.toNat)
    (hi : i.toNat < 256 + m.k) (hc : c ∈ childLinks m.nm i) : c.toNat < i.toNat := by
  obtain ⟨hleft, hright⟩ := h.down i h256 hi
  rcases List.mem_pair.mp hc with rfl | rfl
  · exact hleft
  · exact hright

section
variable {fc : FreqTable} {m : MergeState} (hok : MergeOk fc m) {a b : NodeId}
  {rest : List NodeId} (hp : (a :: b :: rest).Perm m.work)
include hok hp

/-- After a turn that extracts a and then b, nothing extracted so far has a key above b's. -/
theorem ExtractedInOrder.nodeKey_le_second (h : ExtractedInOrder m) (ha : nodeKey m.nm a ≤ nodeKey m.nm b)
    {i c : NodeId} (h256 : 256 ≤ i.toNat) (hi : i.toNat < 256 + (m.k + 1))
    (hc : c ∈ childLinks (Machine.mergeNodes m a b rest).nm i) :
    nodeKey (Machine.mergeNodes m a b rest).nm c ≤ nodeKey m.nm b := by
  have hk := hok.k_lt hp
  have hb : b ∈ m.work := hp.subset (by simp)
  rcases old_or_new_of_lt hk hi with hi | rfl
  · rw [childLinks_mergeNodes_old hk a b rest hi] at hc
    rw [nodeKey_mergeNodes_old hk a b rest ((hok.child_lt h256 hi hc).trans hi)]
    exact (h.lt_work i h256 hi c hc b hb).le
  · rw [childLinks_mergeNodes_new hk] at hc
    have hcwork : c ∈ m.work := hp.subset (List.mem_append_left rest hc)
    rw [nodeKey_mergeNodes_old hk a b rest (hok.work_lt c hcwork)]
    rcases List.mem_pair.mp hc with rfl | rfl
    · exact ha
    · exact le_rfl

/-- After a turn that extracts a and then b, every node left in W, the new one among them, has a key above b's. -/
theorem MergeOk.nodeKey_second_lt (hsum : freqSum fc < 2 ^ 32) (hb : ∀ c ∈ b :: rest, nodeKey m.nm b ≤ nodeKey m.nm c)
    {w : NodeId} (hw : w ∈ (Machine.mergeNodes m a b rest).work) :
    nodeKey m.nm b < nodeKey (Machine.mergeNodes m a b rest).nm w := by
  rcases List.mem_cons.mp hw with rfl | hw
  · exact hok.nodeKey_lt_new hsum hp
  · have hnodup : (a :: b :: rest).Nodup := hp.nodup_iff.mpr hok.nodup.of_append_left
    have hne : b ≠ w := fun e => (List.nodup_cons.mp hnodup.of_cons).1 (e ▸ hw)
    have hwork : w ∈ m.work := hp.subset (by simp [hw])
    rw [nodeKey_mergeNodes_old (hok.k_lt hp) a b rest (hok.work_lt w hwork)]
    exact (hb w (.tail b hw)).lt_of_ne fun e => hne (nodeKey_injective m.nm e)

/-- One turn keeps `ExtractedInOrder`: what it extracts is least in W, and the new node's key is above it. -/
theorem ExtractedInOrder.mergeNodes (h : ExtractedInOrder m) (hsum : freqSum fc < 2 ^ 32)
    (ha : ∀ c ∈ m.work, nodeKey m.nm a ≤ nodeKey m.nm c) (hb : ∀ c ∈ b :: rest, nodeKey m.nm b ≤ nodeKey m.nm c) :
    ExtractedInOrder (mergeNodes m a b rest) := by
  have hk := hok.k_lt hp
  have hab := ha b (hp.subset (by simp))
  refine ⟨fun i h256 hi c hc w hw => ?lt_work, fun i j h256 hij hj c hc c' hc' => ?sorted⟩
  case lt_work => exact (h.nodeKey_le_second hok hp hab h256 hi hc).trans_lt (hok.nodeKey_second_lt hp hsum hb hw)
  case sorted =>
    have hi : i.toNat < 256 + m.k := Nat.lt_of_lt_of_le hij (Nat.lt_succ_iff.mp hj)
    rw [childLinks_mergeNodes_old hk a b rest hi] at hc
    rw [nodeKey_mergeNodes_old hk a b rest ((hok.child_lt h256 hi hc).trans hi)]
    rcases old_or_new_of_lt hk hj with hj | rfl
    · rw [childLinks_mergeNodes_old hk a b rest hj] at hc'
      rw [nodeKey_mergeNodes_old hk a b rest ((hok.child_lt (h256.trans hij.le) hj hc').trans hj)]
      exact h.sorted i j h256 hij hj c hc c' hc'
    · rw [childLinks_mergeNodes_new hk] at hc'
      have hwork : c' ∈ m.work := hp.subset (List.mem_append_left rest hc')
      rw [nodeKey_mergeNodes_old hk a b rest (hok.work_lt c' hwork)]
      exact h.lt_work i h256 hi c hc c' hwork

end

theorem extractedInOrder_loop {fc : FreqTable} (hsum : freqSum fc < 2 ^ 32) (n : Nat) (m : MergeState)
    (hok : MergeOk fc m) (h : ExtractedInOrder m) : ExtractedInOrder (mergeLoop n m) := by
  induction n generalizing m with
  | zero => exact h
  | succ n ih =>
    rw [mergeLoop]
    split
    · exact h
    · rename_i m' hm
      obtain ⟨a, b, rest, hp, ha, hb, rfl⟩ := mergeOnce_spec hm
      exact ih _ (hok.mergeNodes hp) (h.mergeNodes hok hp hsum ha hb)

theorem extractedInOrder_build {fc : FreqTable} (hsum : freqSum fc < 2 ^ 32) : ExtractedInOrder (buildTree fc) :=
  extractedInOrder_loop hsum 255 _ (mergeOk_start fc) (extractedInOrder_start fc)

/-! ### Keys in the finished tree -/

theorem mem_internalIds {m : MergeState} {id : NodeId} (h256 : 256 ≤ id.toNat) (hid : id.toNat < 256 + m.k) :
    id ∈ m.internalIds := by
  refine List.mem_map.mpr ⟨id.toNat - 256, List.mem_range.mpr (by omega), BitVec.eq_of_toNat_eq ?_⟩
  have := id.isLt
  rw [toNat_internalId _ (by omega)]
  omega

section
variable {fc : FreqTable} (hsum : freqSum fc < 2 ^ 32)
include hsum

/-- R64 in a finished tree: a node's frequency is the sum of its children's, as numbers. -/
theorem buildTree_freq {i : NodeId} (h256 : 256 ≤ i.toNat) (hi : i.toNat < 256 + (buildTree fc).k) :
    (readNode (buildTree fc).nm i).freq.toNat
      = (readNode (buildTree fc).nm (readNode (buildTree fc).nm i).left).freq.toNat
        + (readNode (buildTree fc).nm (readNode (buildTree fc).nm i).right).freq.toNat := by
  have hpos : 1 ≤ (presentSyms fc).length := by
    have hcount := (mergeOk_build fc).count
    omega
  exact ((frequencyConservation fc hsum hpos).1 i (mem_internalIds h256 hi)).1

theorem nodeKey_child_lt {i c : NodeId} (h256 : 256 ≤ i.toNat) (hi : i.toNat < 256 + (buildTree fc).k)
    (hc : c ∈ childLinks (buildTree fc).nm i) : nodeKey (buildTree fc).nm c < nodeKey (buildTree fc).nm i := by
  have hlt := (mergeOk_build fc).child_lt h256 hi hc
  have hfreq := buildTree_freq hsum h256 hi
  unfold nodeKey
  rcases List.mem_pair.mp hc with rfl | rfl <;> omega

/-- Later internal nodes have greater keys: their children have. -/
theorem nodeKey_internal_lt {i j : NodeId} (h256 : 256 ≤ i.toNat) (hij : i.toNat < j.toNat)
    (hj : j.toNat < 256 + (buildTree fc).k) : nodeKey (buildTree fc).nm i < nodeKey (buildTree fc).nm j := by
  have hsorted := (extractedInOrder_build hsum).sorted i j h256 hij hj
  have hleft := hsorted _ (List.mem_cons_self ..) _ (List.mem_cons_self ..)
  have hright := hsorted _ (List.mem_pair.mpr (.inr rfl)) _ (List.mem_pair.mpr (.inr rfl))
  have hi := buildTree_freq hsum h256 (by omega)
  have hj := buildTree_freq hsum (by omega) hj
  rw [nodeKey_lt_iff] at hleft hright ⊢
  rw [← BitVec.toNat_inj] at hleft hright ⊢
  omega

end

/-! ### Depths in the finished tree -/

/-- A path of one more bit leads to a child of where the path leads (R69). -/
theorem follow_concat {nm : NodeMem} {id u : NodeId} {q : List Bool} {b : Bool}
    (h : follow nm id (q ++ [b]) = some u) :
    ∃ p, follow nm id q = some p ∧ 256 ≤ p.toNat ∧ u ∈ childLinks nm p := by
  induction q generalizing id with
  | nil =>
    rw [List.nil_append, follow] at h
    split at h
    · cases h
    · rename_i h256
      cases h
      refine ⟨id, rfl, by omega, ?_⟩
      cases b <;> simp [childLinks]
  | cons d q ih =>
    rw [List.cons_append, follow] at h
    split at h
    · cases h
    · rename_i h256
      rw [follow, if_neg h256]
      exact ih h

theorem follow_lt {fc : FreqTable} {r u : NodeId} (hroot : (buildTree fc).root = some r) {q : List Bool}
    (h : follow (buildTree fc).nm r q = some u) : u.toNat < 256 + (buildTree fc).k := by
  have hok := mergeOk_build fc
  induction q using List.reverseRecOn generalizing u with
  | nil =>
    cases h
    exact hok.work_lt r (List.mem_of_head? hroot)
  | append_singleton q b ih =>
    obtain ⟨p, hp, h256, hu⟩ := follow_concat h
    exact (hok.child_lt h256 (ih hp) hu).trans (ih hp)

section
variable {fc : FreqTable} (hsum : freqSum fc < 2 ^ 32) {r : NodeId} (hroot : (buildTree fc).root = some r)
include hsum hroot

/-- The root's key is above the key of every node below it. -/
theorem nodeKey_lt_root {q : List Bool} {b : Bool} {u : NodeId}
    (h : follow (buildTree fc).nm r (q ++ [b]) = some u) :
    nodeKey (buildTree fc).nm u < nodeKey (buildTree fc).nm r := by
  induction q using List.reverseRecOn generalizing u b with
  | nil =>
    obtain ⟨p, hp, h256, hu⟩ := follow_concat h
    have hlt := nodeKey_child_lt hsum h256 (follow_lt hroot hp) hu
    cases hp
    exact hlt
  | append_singleton q d ih =>
    obtain ⟨p, hp, h256, hu⟩ := follow_concat h
    exact (nodeKey_child_lt hsum h256 (follow_lt hroot hp) hu).trans (ih hp)

/-- Of two nodes the one of the greater key is not deeper: its parent was made no earlier, so the parent's key is not
less, and so on up to the root. -/
theorem length_le_of_nodeKey_le {qu qv : List Bool} {u v : NodeId} (hu : follow (buildTree fc).nm r qu = some u)
    (hv : follow (buildTree fc).nm r qv = some v) (hkey : nodeKey (buildTree fc).nm v ≤ nodeKey (buildTree fc).nm u) :
    qu.length ≤ qv.length := by
  induction qu using List.reverseRecOn generalizing qv u v with
  | nil => exact Nat.zero_le _
  | append_singleton qu b ih =>
    rcases List.eq_nil_or_concat' qv with rfl | ⟨qv, d, rfl⟩
    · cases hv
      exact absurd (nodeKey_lt_root hsum hroot hu) hkey.not_gt
    · obtain ⟨pu, hpu, hpu256, hlinku⟩ := follow_concat hu
      obtain ⟨pv, hpv, hpv256, hlinkv⟩ := follow_concat hv
      have hpv_le : pv.toNat ≤ pu.toNat := by
        by_contra hlt
        have hlt := (extractedInOrder_build hsum).sorted pu pv hpu256 (by omega) (follow_lt hroot hpv) u hlinku v hlinkv
        exact absurd hlt hkey.not_gt
      have hpkey : nodeKey (buildTree fc).nm pv ≤ nodeKey (buildTree fc).nm pu := by
        rcases hpv_le.lt_or_eq with hlt | heq
        · exact (nodeKey_internal_lt hsum hpv256 hlt (follow_lt hroot hpu)).le
        · rw [BitVec.eq_of_toNat_eq heq]
      have hlen := ih hpu hpv hpkey
      simp only [List.length_append, List.length_singleton]
      omega

end

/-- Settles O56: a's leaf has the greater key, so its path, which is its code, is not longer. -/
theorem frequentSymbolsHaveShorterCodes : Obligations.FrequentSymbolsHaveShorterCodes := by
  intro fc a b hsum hb hlt
  have ha : freqOf fc a ≠ 0#32 := by
    intro e
    simp [e] at hlt
  have hne : a ≠ b := by
    rintro rfl
    exact lt_irrefl _ hlt
  obtain ⟨r, t, hroot, hrep, hca, hcb⟩ := exists_paths ha hb hne
  have hleaf := (mergeOk_build fc).leaf_freq
  have hkey : nodeKey (buildTree fc).nm (leafId b) < nodeKey (buildTree fc).nm (leafId a) :=
    (nodeKey_lt_iff ..).mpr (.inl (by rwa [hleaf, hleaf]))
  rw [← CtEntry.length_bits, ← CtEntry.length_bits]
  exact length_le_of_nodeKey_le hsum hroot (hrep.follow_eq [] _ a hca) (hrep.follow_eq [] _ b hcb) hkey.le

end Sys2Proof.Machine
end

section
/-! The encoder (R80, R83, R86): ESTART, the completion of an ENC, and the output of a pass. -/

namespace Sys2Proof.Machine

/-! ### ESTART -/

theorem exec_estart_sequence {s : State} (hb : s.busy = false) (hp : s.phase = .count) :
    exec .estart s = .next (s.raise .sequence (encode .estart)) := by
  rw [exec_eq_issueRule, issueRule_encode_of_idle hb (by simp [hp]), ownRule, State.estartBody, if_pos hp]

/-- R49: in ERROR it is TVALID that decides whether ESTART is discarded. -/
theorem exec_estart_of_error {s : State} (hb : s.busy = false) (hp : s.phase = .error) :
    exec .estart s = .next (if s.tvalid then s.startPass else s) := by
  have hclr : encode .estart ≠ encode .clr := encode_injective.ne nofun
  rw [exec_eq_issueRule, issueRule_of_error hb hp hclr]
  simp

theorem exec_estart_startPass {s : State} (hb : s.busy = false)
    (hp : s.phase = .ready ∨ s.phase = .error ∧ s.tvalid = true) : exec .estart s = .next s.startPass := by
  rcases hp with hready | ⟨herror, ht⟩
  · rw [exec_eq_issueRule, issueRule_encode_of_idle hb (by simp [hready]), ownRule, State.estartBody,
      if_neg (by simp [hready])]
  · rw [exec_estart_of_error hb herror, if_pos ht]

theorem exec_estart_overrun {s : State} (hb : s.busy = true) :
    exec .estart s = .next (s.overrun (encode .estart)) := by
  have hnop : encode .estart ≠ encode .nop := encode_injective.ne nofun
  have hclr : encode .estart ≠ encode .clr := encode_injective.ne nofun
  rw [exec_eq_issueRule, issueRule_of_busy hb hnop hclr]

/-- Settles O15: ESTART's outcomes, one lemma for each. -/
theorem estartStartsAPass : Obligations.EstartStartsAPass :=
  ⟨decode_encode .estart, fun _ hb hp => exec_estart_startPass hb hp, fun _ hb hp => exec_estart_sequence hb hp,
    fun _ hb hp ht => by simp [exec_estart_of_error hb hp, ht], fun _ hb => exec_estart_overrun hb⟩

/-! ### The completion of an ENC -/

/-- Bit i of an entry's code is the i-th bit it emits (R17). -/
theorem CtEntry.getElem?_bits (e : CtEntry) {i : Nat} (hi : i < e.len.toNat) :
    e.bits[i]? = some (e.code.getLsbD i) := by
  simp [CtEntry.bits, hi]

/-- What `Complete()` of an ENC leaves in the elements EncCommit writes (R83). -/
theorem State.complete_enc {s : State} {x : Sym} (hi : s.inflight = .enc x) :
    s.complete.obuf = s.obuf ++ s.codeOf x ∧ s.complete.symcnt = s.symcnt + 1#32 ∧
      s.complete.bitcnt = s.bitcnt + (entryOf s.ct x).len.setWidth 64 ∧ s.complete.ct = s.ct := by
  rw [s.complete_eq, s.commit_enc x hi]
  exact ⟨rfl, rfl, rfl, rfl⟩

/-- Settles O17: OBUF grows by the code (`State.complete_enc`), and `StateInv.encCommit_counts` excludes a wrap. -/
theorem encCommitAppendsTheCode : Obligations.EncCommitAppendsTheCode := by
  intro x s hb hi hh
  obtain ⟨hobuf, hsym, hbit, -⟩ := State.complete_enc hi
  have hstep : engineStep s = .next s.complete :=
    (engineStep_eq_next_iff ..).mpr ⟨s.engineEnabled_iff.mpr ⟨hb, hh⟩, rfl⟩
  refine ⟨s.complete, hstep, ?old, ?level, fun i hlt => ?code, hsym, hbit, fun hinv => ?counts⟩
  case old => rw [hobuf, List.take_left]
  case level => rw [hobuf, List.length_append, State.codeOf, CtEntry.length_bits]
  case code =>
    rw [hobuf, List.getElem?_append_right (Nat.le_add_right ..), Nat.add_sub_cancel_left]
    exact CtEntry.getElem?_bits _ hlt
  case counts =>
    rw [hsym, hbit]
    exact hinv.encCommit_counts hi

/-! ### The output of a pass -/

/-- The elements of the block that the output of a pass is made of (R86): the table, OBUF and the two statistics. -/
def SamePass (s t : State) : Prop :=
  t.ct = s.ct ∧ t.obuf = s.obuf ∧ t.symcnt = s.symcnt ∧ t.bitcnt = s.bitcnt

theorem State.codeOf_congr {s t : State} (h : t.ct = s.ct) : t.codeOf = s.codeOf := by
  funext x
  rw [State.codeOf, h, State.codeOf]

theorem PassOk.congr {s t : State} {xs : List Sym} {popped : List Bool} (h : PassOk s xs popped)
    (hst : SamePass s t) : PassOk t xs popped := by
  obtain ⟨hct, hobuf, hsym, hbit⟩ := hst
  exact ⟨by rw [hobuf, State.codeOf_congr hct]; exact h.output, hsym ▸ h.symbols,
    by rw [hbit, State.codeOf_congr hct]; exact h.bits⟩

/-- An empty OBUF and statistics of 0 begin a pass (R81). -/
theorem PassOk.of_empty {s : State} (hobuf : s.obuf = []) (hsym : s.symcnt = 0#32) (hbit : s.bitcnt = 0#64) :
    PassOk s [] [] :=
  ⟨hobuf, by rw [hsym]; rfl, by rw [hbit]; rfl⟩

/-- A CMD write inside a pass, one that neither clears the block nor starts another pass, leaves the pass (R80, R91). -/
theorem IssueEffect.samePass {w : Word} {s t : State} (he : IssueEffect w s t) (hclr : w ≠ encode .clr)
    (hestart : w = encode .estart → s.busy = true) : SamePass s t := by
  cases he with
  | clear h => exact absurd (eq_encode_of_decode h) hclr
  | startPass h hb _ => simp [hestart (eq_encode_of_decode h)] at hb
  | nothing | overrun | raise | count | build | enc => exact ⟨rfl, rfl, rfl, rfl⟩

/-- EncCommit adds its symbol to the pass, and its code to the bits (R83). -/
theorem PassOk.complete_enc {s : State} {xs : List Sym} {popped : List Bool} {x : Sym} (h : PassOk s xs popped)
    (hinv : StateInv s) (hi : s.inflight = .enc x) : PassOk s.complete (xs ++ [x]) popped := by
  obtain ⟨hobuf, hsym, hbit, hct⟩ := State.complete_enc hi
  obtain ⟨hsymcnt, hbitcnt⟩ := hinv.encCommit_counts hi
  have hcode := State.codeOf_congr hct
  have hflat : (xs ++ [x]).flatMap s.codeOf = xs.flatMap s.codeOf ++ s.codeOf x := by simp
  refine ⟨?_, ?_, ?_⟩
  · rw [hobuf, hcode, hflat, ← h.output, List.append_assoc]
  · rw [hsym, List.length_append, List.length_singleton, ← h.symbols]
    exact hsymcnt
  · rw [hbit, hcode, hflat, List.length_append, ← h.bits, State.codeOf, CtEntry.length_bits]
    exact hbitcnt

/-- A read of OUT_BIT moves the head of OBUF to the popped bits (R34). -/
theorem PassOk.popBit {s : State} {xs : List Sym} {popped : List Bool} (h : PassOk s xs popped) :
    PassOk s.popBit xs (popped ++ s.obuf.take 1) := by
  have hsplit : s.obuf.take 1 ++ s.obuf.tail = s.obuf := by
    rw [← List.drop_one, List.take_append_drop]
  refine ⟨?_, h.symbols, h.bits⟩
  rw [State.popBit_obuf, List.append_assoc, hsplit]
  exact h.output

theorem PassOk.busRead {s : State} {xs : List Sym} {popped : List Bool} (h : PassOk s xs popped) (off : Nat) :
    PassOk (busRead off s) xs (popped ++ if off = 0x38 then s.obuf.take 1 else []) := by
  by_cases hoff : off = 0x38
  · subst hoff
    exact (h.congr (t := s.logRead 0x38 _) ⟨rfl, rfl, rfl, rfl⟩).popBit
  · rw [busRead_other off s hoff, if_neg hoff, List.append_nil]
    exact h.congr ⟨rfl, rfl, rfl, rfl⟩

theorem State.encodedNext_of_not_engine {s : State} (h : s.nextIsEngine = false) : s.encodedNext = [] := by
  simp [State.encodedNext, h]

theorem State.encodedNext_of_engine {s : State} {x : Sym} (hn : s.nextIsEngine = true)
    (he : s.engineEnabled = true) (hi : s.inflight = .enc x) : s.encodedNext = [x] := by
  simp [State.encodedNext, hn, he, hi]

theorem State.poppedNext_of_not_read {s : State} (h : s.nextRead = none) : s.poppedNext = [] := by
  simp [State.poppedNext, h]

theorem State.poppedNext_of_read {s : State} {off : Nat} (h : s.nextRead = some off) :
    s.poppedNext = if off = 0x38 then s.obuf.take 1 else [] := by
  simp [State.poppedNext, h]

/-- R86, one step within a pass: only an ENC's completion encodes a symbol, and only a read of OUT_BIT pops. -/
theorem PassOk.step {s t : State} {xs : List Sym} {popped : List Bool} (h : PassOk s xs popped) (hinv : StateInv s)
    (ht : s.tvalid = true) (hs : Machine.step s = .next t)
    (hestart : s.nextCommand = some (encode .estart) → s.busy = true) (hclr : s.nextCommand ≠ some (encode .clr))
    (hreset : s.nextIsReset = false) : PassOk t (xs ++ s.encodedNext) (popped ++ s.poppedNext) := by
  obtain ⟨hengine, -, hread, hwrite⟩ := s.nextStep_exclusive
  have hdrop : PassOk s.dropEvent xs popped := h.congr ⟨rfl, rfl, rfl, rfl⟩
  cases step_effect hs with
  | engine hn he =>
    rw [State.poppedNext_of_not_read (hengine hn).1, List.append_nil]
    cases hi : s.inflight with
    | none => exact absurd hi (hinv.long.busy_iff.mp (s.engineEnabled_iff.mp he).1)
    | build => exact absurd hi (hinv.inflight_ne_build ht)
    | enc x =>
      rw [State.encodedNext_of_engine hn he hi]
      exact hdrop.complete_enc hinv.dropEvent hi
  | reset hn => simp [hn] at hreset
  | read off hn =>
    rw [State.encodedNext_of_not_engine (hread off hn).2.1, List.append_nil, State.poppedNext_of_read hn]
    exact hdrop.busRead off
  | write off v _ hn hw =>
    obtain ⟨hnoread, hnoengine, -⟩ := hwrite _ hn
    rw [State.encodedNext_of_not_engine hnoengine, State.poppedNext_of_not_read hnoread, List.append_nil,
      List.append_nil]
    rcases busWrite_cases off v s.dropEvent with ⟨rfl, e⟩ | ⟨-, e⟩ | ⟨-, -, e⟩
    · have hcmd := nextCommand_of_nextWrite hn
      refine hdrop.congr ((issue_effect (e ▸ hw)).samePass ?_ ?_)
      · rintro rfl
        exact hclr hcmd
      · rintro rfl
        exact hestart hcmd
    · cases e.symm.trans hw
      exact hdrop.congr ⟨rfl, rfl, rfl, rfl⟩
    · cases e.symm.trans hw
      exact hdrop

/-- R21, R23: a BUILD is in flight in COUNT, where the pass is empty, and its completion leaves the pass. -/
theorem StateInv.passOk_complete_build {s : State} (h : StateInv s) (hi : s.inflight = .build) :
    PassOk s.complete [] [] := by
  obtain ⟨-, hsym, hbit, hobuf, -⟩ := h.count_phase (h.long.build_phase hi)
  rw [s.complete_eq, s.commit_build hi]
  exact .of_empty hobuf hsym hbit

/-- Of the bits of a pass those not popped are in OBUF (R86). -/
theorem PassOk.level {s : State} {xs : List Sym} {popped : List Bool} (h : PassOk s xs popped) :
    s.bitcnt.toNat - popped.length = s.obuf.length := by
  rw [h.bits, ← h.output, List.length_append, Nat.add_sub_cancel_left]

/-- Settles O58: the two starts of a pass, and `PassOk.step`. -/
theorem encodingPassOutput : Obligations.EncodingPassOutput := by
  refine ⟨fun s => .of_empty rfl rfl rfl, fun s t hinv hi h => ?_,
    fun s t xs popped hinv ht hok hs hestart hclr hreset => hok.step hinv ht hs hestart hclr hreset,
    fun s xs popped hok => hok.level⟩
  obtain ⟨-, rfl⟩ := (engineStep_eq_next_iff s t).mp h
  exact hinv.passOk_complete_build hi

end Sys2Proof.Machine
end

section
/-! The round trip (R88): the host's greedy decoder gives back the encoded stream, since no code begins another. -/

namespace Sys2Proof.Machine

/-- R74 and R88: of the present symbols exactly x has a code that begins a bit string beginning with x's code. Two codes
that begin one bit string are one a prefix of the other. -/
theorem builtTable_prefix_iff {fc : FreqTable} {x : Sym} (hx : freqOf fc x ≠ 0#32) (rest : List Bool) (y : Sym) :
    (freqOf fc y ≠ 0#32 ∧ (entryOf (builtTable fc) y).bits <+: (entryOf (builtTable fc) x).bits ++ rest) ↔ y = x := by
  constructor
  · rintro ⟨hy, hpre⟩
    by_contra hne
    rcases List.prefix_or_prefix_of_prefix hpre (List.prefix_append _ rest) with hyx | hxy
    · exact tableIsPrefixFree fc y x hy hx hne hyx
    · exact tableIsPrefixFree fc x y hx hy (Ne.symm hne) hxy
  · rintro rfl
    exact ⟨hx, List.prefix_append _ rest⟩

theorem matchCode_eq_some {ct : CodeTable} {bits : List Bool} {x : Sym} (h : matchCode ct bits = some x) :
    (entryOf ct x).len ≠ 0#8 ∧ (entryOf ct x).bits <+: bits := by
  simpa using List.find?_some h

theorem matchCode_isSome {ct : CodeTable} {bits : List Bool} {x : Sym} (hlen : (entryOf ct x).len ≠ 0#8)
    (hpre : (entryOf ct x).bits <+: bits) : (matchCode ct bits).isSome = true :=
  List.find?_isSome.mpr ⟨x, mem_allSyms x, by simpa using ⟨hlen, hpre⟩⟩

/-- No code is empty, so none begins the empty bit string. -/
theorem matchCode_nil (ct : CodeTable) : matchCode ct [] = none := by
  refine Option.eq_none_iff_forall_ne_some.mpr fun x hx => ?_
  obtain ⟨hlen, hpre⟩ := matchCode_eq_some hx
  have hbits := congrArg List.length (List.prefix_nil.mp hpre)
  rw [CtEntry.length_bits, List.length_nil] at hbits
  exact hlen (BitVec.eq_of_toNat_eq hbits)

/-- R88: at the front of a present symbol's code the decoder finds that symbol. -/
theorem matchCode_append {fc : FreqTable} {x : Sym} (hx : freqOf fc x ≠ 0#32) (rest : List Bool) :
    matchCode (builtTable fc) ((entryOf (builtTable fc) x).bits ++ rest) = some x := by
  have hcoded := builtTable_len_ne_zero_iff (List.ne_nil_of_mem ((mem_presentSyms fc x).mpr hx))
  obtain ⟨y, hy⟩ := Option.isSome_iff_exists.mp (matchCode_isSome ((hcoded x).mpr hx) (List.prefix_append _ rest))
  obtain ⟨hylen, hypre⟩ := matchCode_eq_some hy
  rw [hy, (builtTable_prefix_iff hx rest y).mp ⟨(hcoded y).mp hylen, hypre⟩]

/-- Every code takes at least one bit, so fuel for every bit is enough. -/
theorem greedyDecode_flatMap {fc : FreqTable} (xs : List Sym) (hxs : ∀ x ∈ xs, freqOf fc x ≠ 0#32) (fuel : Nat)
    (hfuel : (xs.flatMap fun x => (entryOf (builtTable fc) x).bits).length ≤ fuel) :
    greedyDecode (builtTable fc) fuel (xs.flatMap fun x => (entryOf (builtTable fc) x).bits) = xs := by
  induction xs generalizing fuel with
  | nil => cases fuel <;> simp [greedyDecode, matchCode_nil]
  | cons x xs ih =>
    obtain ⟨hx, hxs⟩ := List.forall_mem_cons.mp hxs
    have hpos := (builtTable_len_bounds hx).1
    rw [List.flatMap_cons, List.length_append, CtEntry.length_bits] at hfuel
    obtain ⟨n, rfl⟩ : ∃ n, fuel = n + 1 := ⟨fuel - 1, by omega⟩
    have hdrop := List.drop_left (l₁ := (entryOf (builtTable fc) x).bits)
      (l₂ := xs.flatMap fun x => (entryOf (builtTable fc) x).bits)
    rw [CtEntry.length_bits] at hdrop
    rw [List.flatMap_cons, greedyDecode, matchCode_append hx]
    simp only [hdrop]
    rw [ih hxs n (by omega)]

/-- Settles O60: `greedyDecode_flatMap`, and the prefix-free table at the head of the bits. -/
theorem roundTrip : Obligations.RoundTrip := by
  intro fc xs hxs
  refine ⟨greedyDecode_flatMap xs hxs _ le_rfl, fun x rest hcons y => ?_⟩
  subst hcons
  rw [List.flatMap_cons]
  exact builtTable_prefix_iff (hxs x (List.mem_cons_self ..)) _ y

end Sys2Proof.Machine
end

section
/-! NOP (R90): the one legal word with OP 0x00. -/

namespace Sys2Proof.Machine

/-- R46: opcode 0x00 is NOP's alone. -/
theorem eq_nop_of_opField_encode {i : Instr} (h : opField (encode i) = 0x00#8) : i = .nop := by
  cases i with
  | nop => rfl
  | clr | cnt x | build | estart | enc x => simp [encode] at h

/-- R90: a word with OP 0x00 that is not NOP's is illegal. -/
theorem illegal_of_opField_zero {w : Word} (hop : opField w = 0x00#8) (hw : w ≠ encode .nop) : legal w = false := by
  refine illegal_of_forall_ne_encode ?_
  rintro i rfl
  exact hw (congrArg encode (eq_nop_of_opField_encode hop))

/-- Settles O11: the other words with OP 0x00 are illegal, and the gate says what an illegal word does. -/
theorem nopChangesNothing : Obligations.NopChangesNothing := by
  refine ⟨rfl, fun s => rfl, fun w s hop hw => ?_⟩
  rw [issue_of_illegal (illegal_of_opField_zero hop hw), State.issueIllegal]
  refine ⟨fun hb hp => ?idle, fun hb hp => ?error, fun hb ho => ?busy⟩
  case idle => rw [State.gated_of_idle hb hp]
  case error => simp [State.gated, hb, hp]
  case busy =>
    rw [State.gated, if_pos hb, State.overrun, if_neg (by simp [ho])]
    rfl

end Sys2Proof.Machine
end

section
/-! Errors (spec 60): what enters ERROR, where each code comes from, and what phase ERROR discards. -/

namespace Sys2Proof.Machine

/-! ### Precise errors -/

/-- A CMD write enters phase ERROR by `raise` alone (R93). -/
theorem IssueEffect.eq_raise_of_enters_error {w : Word} {s t : State} (he : IssueEffect w s t)
    (hs : s.phase ≠ .error) (ht : t.phase = .error) : ∃ e, t = s.raise e w := by
  cases he with
  | raise e => exact ⟨e, rfl⟩
  | clear | startPass => cases ht
  | nothing | overrun | count | build | enc => exact absurd ht hs

/-- Settles O7: `raise` is its definition, and a CMD write that enters ERROR is a `raise`. -/
theorem errorsArePrecise : Obligations.ErrorsArePrecise := by
  refine ⟨fun _ _ _ => rfl, fun w s t hs h ht => ?_⟩
  obtain ⟨e, rfl⟩ := (issue_effect h).eq_raise_of_enters_error hs ht
  rfl

/-! ### Where the error code changes -/

/-- R94: a CMD write clears the code (R80, R91), records the overrun (R49), or raises one of the codes 1 to 6. -/
theorem IssueEffect.errCode_cases {w : Word} {s t : State} (he : IssueEffect w s t) :
    t.errCode = s.errCode ∨ t.errCode = .none ∨
      (t.errCode = .cmdOverrun ∧ s.busy = true ∧ t.ovrp = true ∧ t.phase = s.phase) ∨
      (t.errCode ≠ .cmdOverrun ∧ s.busy = false ∧ t.phase = .error) := by
  cases he with
  | clear | startPass => exact .inr (.inl rfl)
  | overrun hb _ => exact .inr (.inr (.inl ⟨rfl, hb, rfl, rfl⟩))
  | raise e hb _ hc => exact .inr (.inr (.inr ⟨hc.ne.2, hb, rfl⟩))
  | nothing | count | build | enc => exact .inl rfl

/-- No error is detected at a completion: ERR stays (R94). -/
theorem State.complete_err (s : State) :
    s.complete.errCode = s.errCode ∧ s.complete.errSym = s.errSym ∧ s.complete.errOp = s.errOp := by
  obtain ⟨-, -, -, hcode, hsym, hop, -⟩ := s.commit_frame
  rw [s.complete_eq]
  exact ⟨hcode, hsym, hop⟩

theorem State.complete_phase_eq_error_iff (s : State) : s.complete.phase = .error ↔ s.ovrp = true := by
  rw [s.complete_eq]
  cases s.ovrp <;> simp

theorem busRead_errCode (off : Nat) (s : State) : (busRead off s).errCode = s.errCode := by
  by_cases hoff : off = 0x38
  · subst hoff
    rfl
  · rw [busRead_other off s hoff, State.logRead_errCode]

/-- Only a CMD write and reset change the error code at a step (R94). -/
theorem step_errCode_cases {s t : State} (h : step s = .next t) :
    t.errCode = s.errCode ∨ (∃ w, s.nextCommand = some w) ∨ s.nextIsReset = true := by
  cases step_effect h with
  | engine _ _ => exact .inl s.dropEvent.complete_err.1
  | reset hn => exact .inr (.inr hn)
  | read off _ => exact .inl (busRead_errCode off s.dropEvent)
  | write off v _ hn hw =>
    rcases busWrite_cases off v s.dropEvent with ⟨rfl, -⟩ | ⟨-, e⟩ | ⟨-, -, e⟩
    · exact .inr (.inl ⟨v, nextCommand_of_nextWrite hn⟩)
    · cases e.symm.trans hw
      exact .inl rfl
    · cases e.symm.trans hw
      exact .inl rfl

/-- Settles O8, by the cases of a CMD write, of `Complete()` and of a step. -/
theorem errorsAreRaisedAtIssue : Obligations.ErrorsAreRaisedAtIssue :=
  ⟨fun _ _ _ h hne => (issue_effect h).errCode_cases.resolve_left hne, State.complete_err,
    State.complete_phase_eq_error_iff, fun _ _ h hne => (step_errCode_cases h).resolve_left hne⟩

/-! ### Phase ERROR -/

/-- R96: in phase ERROR a word that is neither CLR nor a permitted ESTART is discarded. -/
theorem issue_of_error {w : Word} {s : State} (hb : s.busy = false) (hp : s.phase = .error)
    (hclr : w ≠ encode .clr) (hestart : ¬ (w = encode .estart ∧ s.tvalid = true)) : issue w s = .next s := by
  rw [issue_eq_issueRule, issueRule_of_error hb hp hclr, if_neg hestart]

/-- No register but STATUS shows the phase (R27). -/
theorem regValue_phase_irrelevant {r : Reg} (h : r ≠ .status) (p : Phase) (s : State) :
    regValue r { s with phase := p } = regValue r s := by
  cases r with
  | status => exact absurd rfl h
  | id | cmd | err | total | nsym | tabSel | tabFreq | tabInfo | rootFreq | symcnt | bitcntLo | bitcntHi | outLevel
  | outBit | param | tabCode | unmapped => rfl

/-- STATUS shows the phase in bits 2 and 3 only, since PHASE has two bits (R27). -/
theorem State.getLsbD_statusWord_phase_irrelevant {i : Nat} (h2 : i ≠ 2) (h3 : i ≠ 3) (p : Phase) (s : State) :
    { s with phase := p }.statusWord.getLsbD i = s.statusWord.getLsbD i := by
  have hfield : ∀ q : Phase, (decide (2 ≤ i) && q.bits.getLsbD (i - 2)) = false := fun q => by
    by_cases hi : 2 ≤ i
    · rw [BitVec.getLsbD_of_ge q.bits (i - 2) (by omega), Bool.and_false]
    · simp [hi]
  by_cases hi : i < 32
  · rw [State.getLsbD_statusWord _ hi, State.getLsbD_statusWord _ hi, hfield, hfield]
    rfl
  · rw [BitVec.getLsbD_of_ge _ i (by omega), BitVec.getLsbD_of_ge _ i (by omega)]

/-- Settles O9: the branch of R49 for phase ERROR, the registers' values, and the TAB_SEL write of R35. -/
theorem errorPhaseDiscardsCommands : Obligations.ErrorPhaseDiscardsCommands :=
  ⟨fun _ _ hp hb hclr hestart => issue_of_error hb hp hclr hestart, fun p _ s h => regValue_phase_irrelevant h p s,
    fun p s _ h2 h3 => s.getLsbD_statusWord_phase_irrelevant h2 h3 p, fun _ _ => rfl⟩

end Sys2Proof.Machine
end

section
/-! What the decoder accepts and what every step keeps, as statements (R21 to R25, R44 to R46). -/

namespace Sys2Proof.Machine

/-- Settles O1: `eq_encode_of_decode` and `decode_encode`. -/
theorem decodedIffEncoded : Obligations.DecodedIffEncoded :=
  fun _ _ => decode_eq_ok_iff

/-- Settles O36: `StateInv.step`, one case for each agent that moves. -/
theorem stepKeepsTheInvariants : Obligations.StepKeepsTheInvariants :=
  fun _ _ h hs => h.step hs

/-- Settles O35: the first state of a block meets each invariant. -/
theorem resetMeetsTheInvariants : Obligations.ResetMeetsTheInvariants :=
  fun _ es hc => .initial hc es

/-- Settles O3: the six legal words are encodings; the other three fail on OP, on RSV and on SYM. -/
theorem decodeOfSpecWords : Obligations.DecodeOfSpecWords :=
  ⟨decode_encode .nop, decode_encode .clr, decode_encode (.cnt 0x61#8), decode_encode .build, decode_encode .estart,
    decode_encode (.enc 0x63#8), by decide, by decide, by decide⟩

end Sys2Proof.Machine
end

section
/-! Reads (R33, R34, R38), and a pending event as a step (R12). -/

namespace Sys2Proof.Machine

/-! ### What a read does -/

/-- A read returns the register's value and changes the block at OUT_BIT only, where it pops (R34). -/
theorem busRead_eq (off : Nat) (s : State) :
    busRead off s = { s with
      obuf := if off = 0x38 then s.obuf.tail else s.obuf
      readLog := { offset := off, value := regValue (regAt off) s } :: s.readLog } := by
  by_cases h : off = 0x38
  · subst h
    rfl
  · rw [busRead_other off s h, if_neg h]
    rfl

/-- OUT_BIT of a nonempty OBUF reads VALID in bit 31 and the head in bit 0 (R27). -/
theorem State.outBitWord_cons {s : State} {b : Bool} {rest : List Bool} (h : s.obuf = b :: rest) :
    s.outBitWord = if b then 0x80000001#32 else 0x80000000#32 := by
  cases b <;> simp [State.outBitWord, h, bitAt]

theorem State.outBitWord_nil {s : State} (h : s.obuf = []) : s.outBitWord = 0x00000000#32 := by
  simp [State.outBitWord, h]

theorem busRead_outBit_cons {s : State} {b : Bool} {rest : List Bool} (h : s.obuf = b :: rest) :
    busRead 0x38 s = { s with
      obuf := rest
      readLog := { offset := 0x38, value := if b then 0x80000001#32 else 0x80000000#32 } :: s.readLog } := by
  rw [busRead_eq, if_pos rfl, h, List.tail_cons, ← State.outBitWord_cons h]
  rfl

theorem busRead_outBit_nil {s : State} (h : s.obuf = []) :
    busRead 0x38 s = { s with readLog := { offset := 0x38, value := 0x00000000#32 } :: s.readLog } := by
  rw [busRead_eq, if_pos rfl, h, List.tail_nil, ← h, ← State.outBitWord_nil h]
  rfl

/-- Settles O28: the two cases of an OUT_BIT read, and every other read. -/
theorem busReadReturnsAndPops : Obligations.BusReadReturnsAndPops :=
  ⟨fun _ _ _ h => busRead_outBit_cons h, fun _ h => busRead_outBit_nil h, fun s off h => busRead_other off s h⟩

/-! ### Repeated reads and unmapped offsets -/

/-- No register shows what the host has read (log entry 6). -/
theorem regValue_readLog_irrelevant (r : Reg) (s : State) (log : List ReadResult) :
    regValue r { s with readLog := log } = regValue r s := by
  cases r <;> rfl

/-- Settles O32: a read elsewhere than at OUT_BIT only lengthens the read log, which no register shows. -/
theorem readsAreIdempotent : Obligations.ReadsAreIdempotent := by
  intro s off h
  rw [busRead_other off s h, busRead_other off _ h]
  refine ⟨rfl, ?_⟩
  rw [State.logRead_readLog, State.logRead_readLog, List.head?_cons, List.head?_cons, State.logRead,
    regValue_readLog_irrelevant]

theorem regAt_unmapped {off : Nat} (h : 0x60 ≤ off) : regAt off = .unmapped := by
  unfold regAt
  split
  case h_25 => rfl
  all_goals omega

/-- Settles O27: an unmapped offset reads 0, and a bus write has an effect at CMD and TAB_SEL only. -/
theorem unmappedAndReadOnlyAccesses : Obligations.UnmappedAndReadOnlyAccesses := by
  refine ⟨fun off hlo _ => ?_, fun off v s h4 h18 => busWrite_other v s h4 h18, fun _ => rfl⟩
  have hreg := regAt_unmapped hlo
  refine ⟨by rw [hreg]; rfl, fun s => ?_⟩
  rw [busRead_other off s (by omega), hreg]
  rfl

/-! ### The pending event -/

/-- The step of a pending host read is the bus read, after the event is taken off (R12). -/
theorem step_hostRead {s : State} {off : Nat} {rest : List Event} (h4 : off % 4 = 0) (hlt : off < 0x100)
    (he : s.events = hostRead s.cfg off :: rest) : step s = .next (busRead off { s with events := rest }) := by
  have hstep : step s = eventStep (hostRead s.cfg off) { s with events := rest } := by simp [step, he]
  rw [hstep]
  exact hostStep_of_read (windowOffset_word s.cfg .read h4 hlt) rfl

theorem issue_of_decode {w : Word} {i : Instr} (h : decode w = .ok i) (s : State) : issue w s = exec i s := by
  rw [eq_encode_of_decode h, issue_encode]

theorem issue_of_decode_error {w : Word} {e : DecodeError} (h : decode w = .error e) (s : State) :
    issue w s = .next (s.issueIllegal w) := by
  simp [issue, h]

/-- The host's view of the decoder is the decoder, on the word that `withFetchWord` places (R44). -/
theorem decode_of_decodeTableWord {n w : Nat} {i : Instr} (h : decodeTableWord n w = some i) :
    decode (BitVec.ofNat 32 (w % 2 ^ n)) = .ok i := by
  unfold decodeTableWord at h
  cases hd : decode (BitVec.ofNat 32 (w % 2 ^ n)) with
  | ok j => simpa [hd, Except.toOption] using h
  | error e => simp [hd, Except.toOption] at h

/-- The step of a pending CMD write is `Issue` of its word (R12, R35). -/
theorem step_cmdWrite {s : State} {w : Word} {rest : List Event} (he : s.events = hostWrite s.cfg 0x04 w :: rest) :
    step s = issue w { s with events := rest } :=
  step_hostWrite (by decide) (by decide) he

/-- Settles O25: the pending event decides the step; a CMD write is `Issue`, which is `exec` of a decoded word. -/
theorem stepRunsTheDecodedCommand : Obligations.StepRunsTheDecodedCommand := by
  refine ⟨fun s w i rest he hd => ?legal, fun s w e rest he hd => ?illegal, fun s w i hd => ?fetch,
    fun s rest he => ?engine, fun s he hen => ?idle⟩
  case legal => rw [step_cmdWrite he, issue_of_decode hd]
  case illegal => rw [step_cmdWrite he, issue_of_decode_error hd]
  case fetch =>
    have he : (s.withFetchWord 32 w).events = hostWrite s.cfg 0x04 (BitVec.ofNat 32 (w % 2 ^ 32)) :: s.events := rfl
    exact (step_cmdWrite he).trans (issue_of_decode (decode_of_decodeTableWord hd) s)
  case engine => simp [step, he, eventStep]
  case idle => simp [step, he, idleStep, hen]

end Sys2Proof.Machine
end

section
/-! BUILD and ENC (R57, R82): the issue, the errors in their order, and BUILD's completion. -/

namespace Sys2Proof.Machine

/-- In COUNT or READY while not busy a command is its own rule (R49). -/
theorem exec_of_idle {s : State} (hb : s.busy = false) (hp : s.phase ≠ .error) (i : Instr) :
    exec i s = .next (ownRule i s) := by
  rw [exec_eq_issueRule, issueRule_encode_of_idle hb hp]

/-! ### BUILD -/

theorem exec_build_begins {s : State} (hb : s.busy = false) (hp : s.phase = .count) (hn : s.nsym ≠ 0) :
    exec .build s = .next (s.beginLong .build) := by
  rw [exec_of_idle hb (by simp [hp]), ownRule, State.buildBody, if_neg (by simp [hp]), if_neg hn]

theorem exec_build_sequence {s : State} (hb : s.busy = false) (hp : s.phase = .ready) :
    exec .build s = .next (s.raise .sequence (encode .build)) := by
  rw [exec_of_idle hb (by simp [hp]), ownRule, State.buildBody, if_pos (by simp [hp])]

theorem exec_build_emptyInput {s : State} (hb : s.busy = false) (hp : s.phase = .count) (hn : s.nsym = 0) :
    exec .build s = .next (s.raise .emptyInput (encode .build)) := by
  rw [exec_of_idle hb (by simp [hp]), ownRule, State.buildBody, if_neg (by simp [hp]), if_pos hn]

/-- A BUILD never waits for output space (R18). -/
theorem State.hold_of_build {s : State} (hi : s.inflight = .build) : s.hold = false := by
  simp [State.hold, hi]

/-- BUILD's completion (R40, R68). -/
theorem engineStep_of_build {s : State} (hb : s.busy = true) (hi : s.inflight = .build) :
    engineStep s = .next { s.buildCommit with
      busy := false, inflight := .none, ovrp := false, phase := if s.ovrp then .error else .ready } := by
  rw [engineStep, if_pos (s.engineEnabled_iff.mpr ⟨hb, State.hold_of_build hi⟩), s.complete_eq, s.commit_build hi]

/-- A symbol counted for the first time adds its whole count to the sum. -/
theorem freqSum_setFreq_of_absent {fc : FreqTable} {x : Sym} (h : freqOf fc x = 0#32) (v : Word) :
    freqSum (setFreq fc x v) = freqSum fc + v.toNat := by
  simpa [h] using freqSum_setFreq fc x v

/-- The counters of the stream `aaabbc` sum to 6, which is its tree's root frequency (R64). -/
theorem builtRootFreq_aaabbc :
    builtRootFreq (setFreq (setFreq (setFreq clearedFreq 0x61#8 3#32) 0x62#8 2#32) 0x63#8 1#32) = 6#32 := by
  rw [builtRootFreq_eq_freqSum (List.ne_nil_of_mem ((mem_presentSyms _ 0x63#8).mpr (by simp)))]
  simp [freqSum_setFreq_of_absent, freqOf_setFreq, freqSum_cleared]

/-- Settles O14: BUILD's outcomes, one lemma for each. -/
theorem buildIssuesAndCompletes : Obligations.BuildIssuesAndCompletes :=
  ⟨decode_encode .build, fun _ hb hp hn => exec_build_begins hb hp hn, fun _ hb hp => exec_build_sequence hb hp,
    fun _ hb hp hn => exec_build_emptyInput hb hp hn, fun _ hb hi => engineStep_of_build hb hi,
    fun _ hfc => hfc ▸ builtRootFreq_aaabbc⟩

/-! ### ENC -/

theorem encode_enc (x : Sym) : encode (.enc x) = 0x05000000#32 + x.setWidth 32 := packCommand_eq_add 0x05#8 x

theorem exec_enc_sequence {s : State} (hb : s.busy = false) (hp : s.phase = .count) (x : Sym) :
    exec (.enc x) s = .next (s.raise .sequence (encode (.enc x))) := by
  rw [exec_of_idle hb (by simp [hp]), ownRule, State.encBody, if_pos (by simp [hp])]

theorem exec_enc_unencodable {s : State} {x : Sym} (hb : s.busy = false) (hp : s.phase = .ready)
    (hl : (entryOf s.ct x).len = 0#8) : exec (.enc x) s = .next (s.raise .unencodableSymbol (encode (.enc x))) := by
  rw [exec_of_idle hb (by simp [hp]), ownRule, State.encBody, if_neg (by simp [hp]), if_pos hl]

theorem exec_enc_statOverflow {s : State} {x : Sym} (hb : s.busy = false) (hp : s.phase = .ready)
    (hl : (entryOf s.ct x).len ≠ 0#8) (hs : s.symcnt = 0xFFFFFFFF#32) :
    exec (.enc x) s = .next (s.raise .statOverflow (encode (.enc x))) := by
  rw [exec_of_idle hb (by simp [hp]), ownRule, State.encBody, if_neg (by simp [hp]), if_neg hl, if_pos hs]

theorem exec_enc_begins {s : State} {x : Sym} (hb : s.busy = false) (hp : s.phase = .ready)
    (hl : (entryOf s.ct x).len ≠ 0#8) (hs : s.symcnt ≠ 0xFFFFFFFF#32) :
    exec (.enc x) s = .next (s.beginLong (.enc x)) := by
  rw [exec_of_idle hb (by simp [hp]), ownRule, State.encBody, if_neg (by simp [hp]), if_neg hl, if_neg hs]

/-- A code has at most 255 bits, and OBUF room for as many (R8): an empty OBUF holds nothing back. -/
theorem State.engineEnabled_of_empty {s : State} (hc : s.cfg.wf = true) (hb : s.busy = true) (ho : s.obuf = []) :
    s.engineEnabled = true := by
  refine s.engineEnabled_iff.mpr ⟨hb, Bool.eq_false_iff.mpr fun hh => ?_⟩
  obtain ⟨-, x, -, hlt⟩ := s.hold_iff.mp hh
  have hlen := (entryOf s.ct x).len.isLt
  rw [Config.wf, Bool.and_eq_true, decide_eq_true_eq] at hc
  rw [ho, List.length_nil] at hlt
  omega

/-- Settles O16: ENC's outcomes, one lemma for each; the word's SYM field is the symbol. -/
theorem encIssues : Obligations.EncIssues := by
  unfold Obligations.EncIssues
  simp only [← encode_enc]
  exact ⟨fun _ => decode_encode _, fun _ _ hb hp hl hs => exec_enc_begins hb hp hl hs,
    fun x _ hb hp => exec_enc_sequence hb hp x, fun _ _ hb hp hl => exec_enc_unencodable hb hp hl,
    fun _ _ hb hp hl hs => exec_enc_statOverflow hb hp hl hs, fun x _ => symField_packCommand 0x05#8 x,
    fun _ _ hc hb _ ho => State.engineEnabled_of_empty hc hb ho⟩

end Sys2Proof.Machine
end

section
/-! What the effects of a CMD write share: which error is reported, and what each command leaves unchanged. -/

namespace Sys2Proof.Machine

/-! ### Priority of the errors (R95) -/

theorem issue_illegal_of_idle {w : Word} {s : State} (h : legal w = false) (hb : s.busy = false)
    (hp : s.phase ≠ .error) : issue w s = .next (s.raise .illegalCommand w) := by
  rw [issue_of_illegal h, State.issueIllegal, State.gated_of_idle hb hp]

theorem issue_of_busy {w : Word} {s : State} (hb : s.busy = true) (hnop : w ≠ encode .nop) (hclr : w ≠ encode .clr) :
    issue w s = .next (s.overrun w) := by
  rw [issue_eq_issueRule, issueRule_of_busy hb hnop hclr]

/-- After a first overrun no word but CLR has an effect while busy (R49). -/
theorem issue_of_overrun {w : Word} {s : State} (hb : s.busy = true) (ho : s.ovrp = true) (hclr : w ≠ encode .clr) :
    issue w s = .next s := by
  by_cases hnop : w = encode .nop
  · rw [hnop, issue_eq_issueRule, issueRule_nop]
  · rw [issue_of_busy hb hnop hclr, State.overrun, if_pos ho]

/-- Settles O6: the outcome of the command word under each condition names its error. -/
theorem errorPriority : Obligations.ErrorPriority := by
  refine ⟨fun w s t hl hb hp h => ?illegal, fun x s t hb hp h => ?cnt, fun x s t hb hp h => ?encCount,
    fun x s t hb hp hl h => ?encAbsent, fun w s t hb ho hnop hclr h => ?overrun, fun w s t hb ho hclr h => ?later⟩
  case illegal =>
    cases (issue_illegal_of_idle hl hb hp).symm.trans h
    rfl
  case cnt =>
    cases (exec_cnt_sequence hb hp x).symm.trans (issue_encode _ s ▸ h)
    rfl
  case encCount =>
    cases (exec_enc_sequence hb hp x).symm.trans (issue_encode _ s ▸ h)
    rfl
  case encAbsent =>
    cases (exec_enc_unencodable hb hp hl).symm.trans (issue_encode _ s ▸ h)
    rfl
  case overrun =>
    cases (issue_of_busy hb hnop hclr).symm.trans h
    simp [State.overrun, ho]
  case later =>
    cases (issue_of_overrun hb ho hclr).symm.trans h
    rfl

/-! ### The fields of ERR (R92) -/

theorem ErrCode.bits_lt (c : ErrCode) : c.bits.toNat < 8 := by
  cases c <;> decide

/-- A CMD write that records an error takes ERR.SYM and ERR.OP from its word (R92). -/
theorem IssueEffect.err_fields {w : Word} {s t : State} (he : IssueEffect w s t) (hnone : t.errCode ≠ .none)
    (hne : t.errCode ≠ s.errCode) : t.errSym = symField w ∧ t.errOp = opField w := by
  cases he with
  | overrun | raise => exact ⟨rfl, rfl⟩
  | clear | startPass => exact absurd rfl hnone
  | nothing | count | build | enc => exact absurd rfl hne

/-- Settles O19: the eight codes one by one, and `IssueEffect.err_fields`. -/
theorem errorCodeNumbers : Obligations.ErrorCodeNumbers :=
  ⟨rfl, ErrCode.bits_lt, fun _ _ _ h hnone hne => (issue_effect h).err_fields hnone hne⟩

/-! ### What a command leaves unchanged -/

/-- No CMD write touches TAB_SEL (R91) or the model's own fields (log entries 1, 2 and 6). -/
theorem IssueEffect.environment {w : Word} {s t : State} (he : IssueEffect w s t) :
    t.tabSel = s.tabSel ∧ t.cfg = s.cfg ∧ t.events = s.events ∧ t.readLog = s.readLog := by
  cases he <;> exact ⟨rfl, rfl, rfl, rfl⟩

/-- A CNT counts its own symbol only (R52). -/
theorem IssueEffect.other_counters {x y : Sym} {s t : State} (he : IssueEffect (encode (.cnt x)) s t) (hy : y ≠ x) :
    freqOf t.fc y = freqOf s.fc y := by
  cases he with
  | clear h => cases (decode_encode _).symm.trans h
  | count z h =>
    cases (decode_encode _).symm.trans h
    exact freqOf_setFreq_of_ne s.fc x y _ hy
  | nothing | overrun | raise | build | startPass | enc => rfl

/-- Of the commands only CLR changes the table, TVALID and ROOT_FREQ (R77, R91). -/
theorem IssueEffect.table_frame {w : Word} {s t : State} (he : IssueEffect w s t) (hclr : w ≠ encode .clr) :
    t.ct = s.ct ∧ t.tvalid = s.tvalid ∧ t.rootFreq = s.rootFreq := by
  cases he with
  | clear h => exact absurd (eq_encode_of_decode h) hclr
  | nothing | overrun | raise | count | build | startPass | enc => exact ⟨rfl, rfl, rfl⟩

/-- What a CMD write does to BUSY and the command in flight: BUILD and ENC issue where not busy, CLR aborts (R49). -/
theorem IssueEffect.inflight_cases {w : Word} {s t : State} (he : IssueEffect w s t) :
    (t.busy = s.busy ∧ t.inflight = s.inflight) ∨ w = encode .clr ∨
      (s.busy = false ∧ (w = encode .build ∨ ∃ x, w = encode (.enc x))) := by
  cases he with
  | clear h => exact .inr (.inl (eq_encode_of_decode h))
  | build h hb => exact .inr (.inr ⟨hb, .inl (eq_encode_of_decode h)⟩)
  | enc x h hb => exact .inr (.inr ⟨hb, .inr ⟨x, eq_encode_of_decode h⟩⟩)
  | nothing | overrun | raise | count | startPass => exact .inl ⟨rfl, rfl⟩

/-- While busy a CMD write is CLR's clear, nothing, or the first overrun (R49). -/
theorem IssueEffect.of_busy {w : Word} {s t : State} (he : IssueEffect w s t) (hb : s.busy = true) :
    w = encode .clr ∨ t = s ∨ (s.ovrp = false ∧ t = { s.recordErr .cmdOverrun w with ovrp := true }) := by
  cases he with
  | nothing => exact .inr (.inl rfl)
  | clear h => exact .inl (eq_encode_of_decode h)
  | overrun _ ho => exact .inr (.inr ⟨ho, rfl⟩)
  | raise _ hidle | count _ _ hidle | build _ hidle | startPass _ hidle | enc _ _ hidle => simp [hb] at hidle

/-- Settles O18: each clause is one of the frames of a CMD write, for the word `encode i`. -/
theorem commandFrames : Obligations.CommandFrames := by
  intro i s t h
  have he : IssueEffect (encode i) s t := issue_effect ((issue_encode i s).trans h)
  have word_ne : ∀ {j}, i ≠ j → encode i ≠ encode j := fun hij => encode_injective.ne hij
  refine ⟨he.environment, fun hclr hcnt => ?counters, fun x hi y hy => ?others,
    fun hclr => he.table_frame (word_ne hclr), fun hclr hestart => ?output, fun hclr hbuild henc => ?inflight, fun hclr hb => ?phase⟩
  case counters =>
    rcases he.counts_cases with hkeep | ⟨x, hw, -⟩ | ⟨hw, -⟩
    · exact hkeep
    · exact absurd hw (word_ne (hcnt x))
    · exact absurd hw (word_ne hclr)
  case others =>
    subst hi
    exact he.other_counters hy
  case output => exact (he.samePass (word_ne hclr) fun hw => absurd hw (word_ne hestart)).2
  case inflight =>
    rcases he.inflight_cases with hkeep | hw | ⟨-, hw | ⟨x, hw⟩⟩
    · exact hkeep
    · exact absurd hw (word_ne hclr)
    · exact absurd hw (word_ne hbuild)
    · exact absurd hw (word_ne (henc x))
  case phase =>
    rcases he.of_busy hb with hw | rfl | ⟨-, rfl⟩
    · exact absurd hw (word_ne hclr)
    · rfl
    · rfl

/-- Settles O59: an error is entered by `raise` alone; a pass that starts or a CLR empties OBUF. -/
theorem failedPassKeepsItsOutput : Obligations.FailedPassKeepsItsOutput := by
  refine ⟨fun w s t hs h ht => ?_, fun s t hb hp htv h => ?_, fun s t h => ?_⟩
  · obtain ⟨e, rfl⟩ := (issue_effect h).eq_raise_of_enters_error hs ht
    exact ⟨rfl, rfl, rfl⟩
  · cases (exec_estart_startPass hb (.inr ⟨hp, htv⟩)).symm.trans h
    rfl
  · cases h
    rfl

end Sys2Proof.Machine
end

section
/-! CLR and reset (R30, R91, R106): one cleared state, and what its registers read. -/

namespace Sys2Proof.Machine

/-! ### The cleared state -/

/-- CLR leaves the reset state but for TAB_SEL and the model's own fields (log entries 1, 2 and 6). -/
theorem State.cleared_eq_reset (s : State) :
    s.cleared =
      { State.reset with tabSel := s.tabSel, cfg := s.cfg, events := s.events, readLog := s.readLog } := rfl

/-- Reset clears the block as CLR does, and TAB_SEL with it (R30, R91). -/
theorem State.applyReset_eq_cleared (s : State) : s.applyReset = { s with tabSel := 0#8 }.cleared := rfl

theorem entryOf_clearedTable (x : Sym) :
    (entryOf clearedTable x).len = 0#8 ∧ (entryOf clearedTable x).code = 0#255 := by
  rw [entryOf_cleared]
  exact ⟨rfl, rfl⟩

theorem State.nsym_cleared (s : State) : s.cleared.nsym = 0 := nsym_reset

theorem State.hold_cleared (s : State) : s.cleared.hold = false := rfl

theorem State.shownEntry_cleared (s : State) : s.cleared.shownEntry = CtEntry.empty := rfl

/-- The registers of a cleared block read 0, but for the constants ID and PARAM and for TAB_SEL, which CLR keeps. -/
theorem regValue_cleared {r : Reg} (hid : r ≠ .id) (hparam : r ≠ .param) (hsel : r ≠ .tabSel) (s : State) :
    regValue r s.cleared = 0#32 := by
  cases r with
  | id => exact absurd rfl hid
  | param => exact absurd rfl hparam
  | tabSel => exact absurd rfl hsel
  | nsym => rw [regValue, s.nsym_cleared]
  | tabFreq => exact freqOf_cleared s.tabSel
  | tabInfo => simp [regValue, State.tabInfoWord, s.shownEntry_cleared, CtEntry.empty, bitAt]
  | tabCode w => simp [regValue, s.shownEntry_cleared, CtEntry.empty]
  | status => simp [regValue, State.statusWord, s.hold_cleared, Phase.bits, bitAt]
  | err => simp [regValue, State.errWord, ErrCode.bits]
  | bitcntHi => simp [regValue]
  | cmd | total | rootFreq | symcnt | bitcntLo | outLevel | outBit | unmapped => rfl

/-! ### The statements -/

/-- Settles O12: CLR is accepted in every state, and the state it leaves is the reset one. -/
theorem clrClearsTheDatapath : Obligations.ClrClearsTheDatapath := by
  refine ⟨rfl, fun s => ⟨s.cleared, rfl, freqOf_cleared, entryOf_clearedTable, ?_⟩, fun s =>
    congrArg Host.Outcome.next s.cleared_eq_reset⟩
  have hstatus : regValue .status s.cleared = 0#32 := regValue_cleared (by decide) (by decide) (by decide) s
  have hnsym : regValue .nsym s.cleared = 0#32 := regValue_cleared (by decide) (by decide) (by decide) s
  exact ⟨rfl, rfl, rfl, rfl, rfl, rfl, rfl, rfl, rfl, rfl, rfl, rfl, rfl, s.hold_cleared, hstatus, hnsym, rfl, rfl, rfl,
    rfl⟩

/-- The registers read their reset values (R30). -/
theorem regValue_applyReset {r : Reg} (hid : r ≠ .id) (hparam : r ≠ .param) (s : State) :
    regValue r s.applyReset = 0#32 := by
  by_cases hsel : r = .tabSel
  · subst hsel
    rfl
  · rw [s.applyReset_eq_cleared]
    exact regValue_cleared hid hparam hsel _

theorem step_reset {s : State} {rest : List Event} (he : s.events = .reset :: rest) :
    step s = .next { s with events := rest }.applyReset := by
  simp [step, he, eventStep]

/-- Settles O34: a reset step is the cleared state with TAB_SEL 0, which CLR leaves as it is. -/
theorem resetLeavesTheTableOfR30 : Obligations.ResetLeavesTheTableOfR30 := by
  intro s rest he
  refine ⟨_, step_reset he, rfl, rfl, rfl, rfl, rfl, freqOf_cleared, rfl, nsym_reset, entryOf_clearedTable, rfl, rfl,
    rfl, rfl, rfl, rfl, rfl, rfl, rfl, rfl, fun r hid hparam => regValue_applyReset hid hparam _, rfl, rfl, rfl⟩

end Sys2Proof.Machine
end

section
/-! The step, command by command: the ways out of ERROR (R97), what happens while busy (R29, R42, R84, R111), and the
writers of TAB_SEL (R16). -/

namespace Sys2Proof.Machine

/-! ### What a step does -/

/-- `StepEffect` with its writes told apart: `Issue` at CMD, the selection at TAB_SEL, nothing elsewhere (R35). -/
inductive StepCase (s : State) : State → Prop where
  | engine (hn : s.nextIsEngine = true) (he : s.engineEnabled = true) : StepCase s s.dropEvent.complete
  | reset (hn : s.nextIsReset = true) : StepCase s s.dropEvent.applyReset
  | read (off : Nat) (hn : s.nextRead = some off) : StepCase s (busRead off s.dropEvent)
  | command (w : Word) (t : State) (hn : s.nextCommand = some w) (he : IssueEffect w s.dropEvent t) : StepCase s t
  | select (v : Word) (hn : s.nextWrite = some (0x18, v)) : StepCase s (s.dropEvent.setTabSel v)
  | ignored : StepCase s s.dropEvent

theorem step_case {s t : State} (h : step s = .next t) : StepCase s t := by
  cases step_effect h with
  | engine hn he => exact .engine hn he
  | reset hn => exact .reset hn
  | read off hn => exact .read off hn
  | write off v _ hn hw =>
    rcases busWrite_cases off v s.dropEvent with ⟨rfl, e⟩ | ⟨rfl, e⟩ | ⟨-, -, e⟩
    · exact .command v t (nextCommand_of_nextWrite hn) (issue_effect (e ▸ hw))
    · cases e.symm.trans hw
      exact .select v hn
    · cases e.symm.trans hw
      exact .ignored

/-- Settles O43: a step's own write to TAB_SEL and a reset are its only writers, and nothing writes the parameters. -/
theorem tabSelWriters : Obligations.TabSelWriters := by
  intro s t h
  cases step_case h with
  | engine _ _ =>
    obtain ⟨-, -, -, -, -, -, hsel, hcfg, -⟩ := s.dropEvent.commit_frame
    rw [State.complete_eq]
    exact ⟨hcfg, fun hne => absurd hsel hne⟩
  | reset hn => exact ⟨rfl, fun _ => .inl hn⟩
  | read off _ =>
    rw [busRead_eq]
    exact ⟨rfl, fun hne => absurd rfl hne⟩
  | command w _ _ he =>
    obtain ⟨hsel, hcfg, -, -⟩ := he.environment
    exact ⟨hcfg, fun hne => absurd hsel hne⟩
  | select v hn => exact ⟨rfl, fun _ => .inr ⟨v, hn⟩⟩
  | ignored => exact ⟨rfl, fun hne => absurd rfl hne⟩

/-! ### Into phase ERROR and out of it -/

/-- A CMD write enters phase ERROR by `raise`, for one of the causes of R95. -/
theorem IssueEffect.raiseCause_of_enters_error {w : Word} {s t : State} (he : IssueEffect w s t)
    (hs : s.phase ≠ .error) (ht : t.phase = .error) : RaiseCause w s t.errCode ∧ t.tvalid = s.tvalid := by
  cases he with
  | raise e _ _ hc => exact ⟨hc, rfl⟩
  | clear | startPass => cases ht
  | nothing | overrun | count | build | enc => exact absurd ht hs

/-- The errors of phase COUNT; SEQUENCE is ESTART's and ENC's there (R95). -/
theorem RaiseCause.in_count {w : Word} {s : State} {e : ErrCode} (h : RaiseCause w s e) (hp : s.phase = .count) :
    e ∈ [ErrCode.illegalCommand, ErrCode.sequence, ErrCode.freqOverflow, ErrCode.emptyInput] ∧
      (e = .sequence → w = encode .estart ∨ ∃ x, w = encode (.enc x)) := by
  cases h with
  | estartSequence h => exact ⟨by decide, fun _ => .inl (eq_encode_of_decode h)⟩
  | encSequence x h => exact ⟨by decide, fun _ => .inr ⟨x, eq_encode_of_decode h⟩⟩
  | illegal | freqOverflow | emptyInput => exact ⟨by decide, nofun⟩
  | cntSequence _ _ hr | buildSequence _ hr | unencodable _ _ hr | statOverflow _ _ hr => simp [hp] at hr

/-- The errors of phase READY (R95). -/
theorem RaiseCause.in_ready {w : Word} {s : State} {e : ErrCode} (h : RaiseCause w s e) (hp : s.phase = .ready) :
    e ∈ [ErrCode.illegalCommand, ErrCode.sequence, ErrCode.unencodableSymbol, ErrCode.statOverflow] := by
  cases h with
  | illegal | cntSequence | buildSequence | unencodable | statOverflow => decide
  | estartSequence _ hc | encSequence _ _ hc | freqOverflow _ _ hc | emptyInput _ hc => simp [hp] at hc

/-- A CMD write leaves phase ERROR by a permitted ESTART or by CLR (R97). -/
theorem IssueEffect.leaves_error {w : Word} {s t : State} (he : IssueEffect w s t) (hs : s.phase = .error)
    (ht : t.phase ≠ .error) : (w = encode .estart ∧ s.tvalid = true ∧ t = s.startPass) ∨
      (w = encode .clr ∧ t = s.cleared) := by
  cases he with
  | clear h => exact .inr ⟨eq_encode_of_decode h, rfl⟩
  | startPass h _ hp =>
    rcases hp with hready | ⟨-, htv⟩
    · simp [hs] at hready
    · exact .inl ⟨eq_encode_of_decode h, htv, rfl⟩
  | raise => exact absurd rfl ht
  | nothing | overrun => exact absurd hs ht
  | count _ _ _ hp | build _ _ hp | enc _ _ _ hp => simp [hs] at hp

/-- In phase ERROR nothing is in flight, so the ENGINE has no step (R21). -/
theorem StateInv.engine_disabled_in_error {s : State} (h : StateInv s) (hp : s.phase = .error) :
    s.engineEnabled = false :=
  Bool.eq_false_iff.mpr fun he => h.long.busy_phase (s.engineEnabled_iff.mp he).1 hp

/-- A completion leaves a valid table: a BUILD commits one, and an ENC has one in flight (R21, R68). -/
theorem StateInv.tvalid_complete {s : State} (h : StateInv s) (hb : s.busy = true) : s.complete.tvalid = true := by
  rw [s.complete_eq]
  obtain ⟨i, hi⟩ : ∃ i, s.inflight = i := ⟨_, rfl⟩
  cases i with
  | none => exact absurd hi (h.long.busy_iff.mp hb)
  | build => rw [s.commit_build hi]; rfl
  | enc x => rw [s.commit_enc x hi]; exact (h.long.enc_ready x hi).2.1

/-- Settles O10: `IssueEffect.leaves_error`, and where each error arises with the TVALID of its phase. -/
theorem leavingTheErrorPhase : Obligations.LeavingTheErrorPhase := by
  refine ⟨fun s t hinv hp h ht => ?ways, fun w s t hinv hp h ht => ?count, fun w s t hinv hp h ht => ?ready,
    fun s hinv hb _ => hinv.tvalid_complete hb⟩
  case ways =>
    cases step_case h with
    | engine _ he => simp [hinv.engine_disabled_in_error hp] at he
    | reset hn => exact .inr (.inr hn)
    | command w _ hn he =>
      rcases he.leaves_error hp ht with ⟨rfl, htv, rfl⟩ | ⟨rfl, rfl⟩
      · exact .inl ⟨hn, htv, rfl, htv, rfl, rfl, rfl, rfl⟩
      · exact .inr (.inl ⟨hn, rfl⟩)
    | read off _ => exact absurd (by rw [busRead_eq]; exact hp) ht
    | select | ignored => exact absurd hp ht
  case count =>
    obtain ⟨hcause, htv⟩ := (issue_effect h).raiseCause_of_enters_error (by simp [hp]) ht
    exact ⟨htv.trans (hinv.count_phase hp).1, hcause.in_count hp⟩
  case ready =>
    obtain ⟨hcause, htv⟩ := (issue_effect h).raiseCause_of_enters_error (by simp [hp]) ht
    exact ⟨htv.trans (hinv.ready_table hp), hcause.in_ready hp⟩

/-! ### A step while busy -/

/-- What every step of the host but CLR keeps while a long command is in flight: its results, and the command (R29). An
element that the step does not write is kept by `rfl`. -/
structure ResultsKept (s t : State) : Prop where
  cfg : t.cfg = s.cfg := by rfl
  phase : t.phase = s.phase := by rfl
  busy : t.busy = s.busy := by rfl
  inflight : t.inflight = s.inflight := by rfl
  tvalid : t.tvalid = s.tvalid := by rfl
  fc : t.fc = s.fc := by rfl
  total : t.total = s.total := by rfl
  ct : t.ct = s.ct := by rfl
  rootFreq : t.rootFreq = s.rootFreq := by rfl
  symcnt : t.symcnt = s.symcnt := by rfl
  bitcnt : t.bitcnt = s.bitcnt := by rfl
  /-- Only a read of OUT_BIT changes OBUF. -/
  obuf : s.nextRead ≠ some 0x38 → t.obuf = s.obuf
  /-- Only its own write changes TAB_SEL. -/
  tabSel : (∀ v, s.nextWrite ≠ some (0x18, v)) → t.tabSel = s.tabSel
  /-- Only a first overrun changes ERR. -/
  err : (t.errCode = s.errCode ∧ t.errSym = s.errSym ∧ t.errOp = s.errOp) ∨
    (s.ovrp = false ∧ t.ovrp = true ∧ t.errCode = .cmdOverrun)

/-- A step while busy is the ENGINE's, a reset, a CLR, or keeps the results. -/
theorem step_of_busy {s t : State} (hb : s.busy = true) (h : step s = .next t) :
    (s.nextIsEngine = true ∧ s.hold = false) ∨ s.nextIsReset = true ∨ s.nextCommand = some (encode .clr) ∨
      ResultsKept s t := by
  cases step_case h with
  | engine hn he => exact .inl ⟨hn, (s.engineEnabled_iff.mp he).2⟩
  | reset hn => exact .inr (.inl hn)
  | read off hn =>
    rw [busRead_eq]
    refine .inr (.inr (.inr { obuf := fun hne => if_neg ?_, tabSel := fun _ => rfl, err := .inl ⟨rfl, rfl, rfl⟩ }))
    rintro rfl
    exact hne hn
  | command w _ hn he =>
    rcases he.of_busy hb with rfl | rfl | ⟨ho, rfl⟩
    · exact .inr (.inr (.inl hn))
    · exact .inr (.inr (.inr { obuf := fun _ => rfl, tabSel := fun _ => rfl, err := .inl ⟨rfl, rfl, rfl⟩ }))
    · exact .inr (.inr (.inr { obuf := fun _ => rfl, tabSel := fun _ => rfl, err := .inr ⟨ho, rfl, rfl⟩ }))
  | select v hn =>
    exact .inr (.inr (.inr
      { obuf := fun _ => rfl, tabSel := fun hne => absurd hn (hne v), err := .inl ⟨rfl, rfl, rfl⟩ }))
  | ignored => exact .inr (.inr (.inr { obuf := fun _ => rfl, tabSel := fun _ => rfl, err := .inl ⟨rfl, rfl, rfl⟩ }))

/-- Settles O21: a step that keeps the command in flight keeps BUSY. -/
theorem longCommandEndsOnlyAtCompletion : Obligations.LongCommandEndsOnlyAtCompletion := by
  intro s t hb h ht
  rcases step_of_busy hb h with hengine | hreset | hclr | hkept
  · exact .inl hengine
  · exact .inr (.inr hreset)
  · exact .inr (.inl hclr)
  · simp [hkept.busy, hb] at ht

theorem ResultsKept.nsym {s t : State} (h : ResultsKept s t) : t.nsym = s.nsym := by
  rw [State.nsym, h.fc, State.nsym]

theorem ResultsKept.shownEntry {s t : State} (h : ResultsKept s t) (hsel : t.tabSel = s.tabSel) :
    t.shownEntry = s.shownEntry := by
  rw [State.shownEntry, h.tvalid, h.ct, hsel, State.shownEntry]

theorem ResultsKept.errWord {s t : State} (h : ResultsKept s t) :
    t.errWord = s.errWord ∨ (s.ovrp = false ∧ t.ovrp = true ∧ t.errCode = .cmdOverrun) := by
  refine h.err.imp_left fun ⟨hcode, hsym, hop⟩ => ?_
  rw [State.errWord, hcode, hsym, hop, State.errWord]

/-- Settles O22: each register shows elements that `ResultsKept` names. -/
theorem busyShowsNoResult : Obligations.BusyShowsNoResult := by
  intro s t hb h hengine hreset hclr
  have hkept : ResultsKept s t := by
    rcases step_of_busy hb h with ⟨hn, -⟩ | hn | hn | hkept
    · simp [hengine] at hn
    · simp [hreset] at hn
    · exact absurd hn hclr
    · exact hkept
  refine ⟨?results, fun hread => ?output, fun hsel => ?lookup, fun hsel w => ?code, fun hne => ?err,
    hkept.busy.trans hb, hkept.phase, hkept.tvalid⟩
  case results =>
    simp [regValue, hkept.total, hkept.nsym, hkept.rootFreq, hkept.symcnt, hkept.bitcnt, hkept.cfg]
  case output => simp [regValue, State.outBitWord, hkept.obuf hread]
  case lookup =>
    have htab := hkept.tabSel hsel
    simp [regValue, State.tabInfoWord, hkept.shownEntry htab, htab, hkept.fc, hkept.tvalid]
  case code => rw [regValue, hkept.shownEntry (hkept.tabSel hsel), regValue]
  case err => exact hkept.errWord.resolve_left hne

/-! ### An ENC in hold -/

/-- A held ENC stays held while OBUF, its command and its code stay (R84). -/
theorem ResultsKept.hold {s t : State} (h : ResultsKept s t) (hobuf : t.obuf = s.obuf) : t.hold = s.hold := by
  rw [State.hold, h.inflight, h.busy, h.cfg, hobuf, h.ct, State.hold]

/-- Settles O23: held, the ENGINE is disabled, and every other step keeps what `hold` is made of. -/
theorem holdEndsOnlyByDrainOrClear : Obligations.HoldEndsOnlyByDrainOrClear := by
  intro s x hb hi hlt
  have hhold : s.hold = true := s.hold_iff.mpr ⟨hb, x, hi, hlt⟩
  refine ⟨hhold, ?status, ?engine, fun t h hread hclr hreset => ?kept⟩
  case status => exact (s.getLsbD_statusWord (by decide)).trans (by simp [hhold])
  case engine => simp [engineStep, State.engineEnabled, hhold]
  case kept =>
    rcases step_of_busy hb h with ⟨-, hn⟩ | hn | hn | hkept
    · simp [hhold] at hn
    · simp [hreset] at hn
    · exact absurd hn hclr
    · have hobuf := hkept.obuf hread
      exact ⟨(hkept.hold hobuf).trans hhold, hkept.busy.trans hb, hkept.inflight.trans hi, hobuf⟩

/-! ### Draining OBUF -/

/-- What the host's read of OUT_BIT returns for one bit of OBUF (R27). -/
def outBitRead (b : Bool) : ReadResult := { offset := 0x38, value := if b then 0x80000001#32 else 0x80000000#32 }

/-- The step of a pending OUT_BIT read while OBUF has bits (R34). -/
theorem step_outBitRead {s : State} {b : Bool} {bits : List Bool} {rest : List Event} (ho : s.obuf = b :: bits)
    (he : s.events = hostRead s.cfg 0x38 :: rest) :
    step s = .next { s with obuf := bits, events := rest, readLog := outBitRead b :: s.readLog } := by
  rw [step_hostRead (by decide) (by decide) he, busRead_outBit_cons (s := { s with events := rest }) ho]
  rfl

/-- As many OUT_BIT reads as OBUF has bits drain it, and the bits stand in the read log, the last one first (R34). -/
theorem run_outBitReads (bits : List Bool) (rest : List Event) (s : State) :
    core.run bits.length
        { s with obuf := bits, events := List.replicate bits.length (hostRead s.cfg 0x38) ++ rest }
      = .next { s with obuf := [], events := rest, readLog := (bits.map outBitRead).reverse ++ s.readLog } := by
  induction bits generalizing s with
  | nil => rfl
  | cons b bits ih =>
    rw [List.map_cons, List.reverse_cons, List.append_assoc]
    exact (core_run_next _ (step_outBitRead rfl rfl)).trans (ih { s with readLog := outBitRead b :: s.readLog })

/-- Settles O24: `run_outBitReads`; an empty OBUF has room for every code. -/
theorem drainLiftsTheHold : Obligations.DrainLiftsTheHold := by
  intro s rest hc hb _ he
  have hrun := run_outBitReads s.obuf rest s
  rw [← he] at hrun
  refine ⟨_, hrun, State.engineEnabled_of_empty hc hb rfl, rfl, rfl, rfl, ?_⟩
  simp [Function.comp_def, outBitRead]

end Sys2Proof.Machine
end

section
/-! The layout of the heap (R66), and the codes as paths of the finished tree (R69, R70). -/

namespace Sys2Proof.Machine

/-! ### Extraction from a rearranged working set -/

/-- Keys are injective, so the arrangement of the working set does not decide which node an extraction takes (R59). -/
theorem extractMin_perm {nm : NodeMem} {work work' rest : List NodeId} {a : NodeId} (hw : work'.Perm work)
    (h : extractMin nm work = some (a, rest)) : ∃ rest', extractMin nm work' = some (a, rest') ∧ rest'.Perm rest := by
  obtain ⟨hp, hle⟩ := extractMin_spec h
  have hne : work' ≠ [] := by
    rintro rfl
    simp [hw.nil_eq.symm] at hp
  obtain ⟨⟨a', rest'⟩, h'⟩ := Option.ne_none_iff_exists'.mp (mt extractMin_eq_none.mp hne)
  obtain ⟨hp', hle'⟩ := extractMin_spec h'
  have ha : a ∈ work' := hw.symm.subset (hp.subset (List.mem_cons_self ..))
  have ha' : a' ∈ work := hw.subset (hp'.subset (List.mem_cons_self ..))
  obtain rfl : a' = a := nodeKey_injective nm (le_antisymm (hle' a ha) (hle a' ha'))
  exact ⟨rest', h', (hp'.trans (hw.trans hp.symm)).cons_inv⟩

/-- The same merges made, with the working set laid out in another order (R66). -/
structure SameMerges (m' m : MergeState) : Prop where
  nm : m'.nm = m.nm
  k : m'.k = m.k
  work : m'.work.Perm m.work

theorem SameMerges.mergeNodes {m m' : MergeState} (h : SameMerges m' m) (a b : NodeId) {rest rest' : List NodeId}
    (hr : rest'.Perm rest) : SameMerges (mergeNodes m' a b rest') (mergeNodes m a b rest) where
  nm := by rw [Machine.mergeNodes, h.nm, h.k, Machine.mergeNodes]
  k := by rw [Machine.mergeNodes, h.k, Machine.mergeNodes]
  work := by
    rw [Machine.mergeNodes, h.k, Machine.mergeNodes]
    exact hr.cons _

/-- One turn of the loop extracts the same two nodes (R61). -/
theorem SameMerges.mergeOnce {m m' n : MergeState} (h : SameMerges m' m) (hm : mergeOnce m = some n) :
    ∃ n', mergeOnce m' = some n' ∧ SameMerges n' n := by
  unfold Machine.mergeOnce at hm
  split at hm
  · cases hm
  · rename_i a w1 h1
    split at hm
    · cases hm
    · rename_i b w2 h2
      cases hm
      obtain ⟨w1', h1', p1⟩ := extractMin_perm h.work h1
      obtain ⟨w2', h2', p2⟩ := extractMin_perm p1 h2
      refine ⟨Machine.mergeNodes m' a b w2', ?_, h.mergeNodes a b p2⟩
      simp only [Machine.mergeOnce, h.nm, h1', h2']

theorem SameMerges.mergeLoop {m m' : MergeState} (h : SameMerges m' m) (j : Nat) :
    SameMerges (mergeLoop j m') (mergeLoop j m) := by
  induction j generalizing m m' with
  | zero => exact h
  | succ j ih =>
    cases hm : Machine.mergeOnce m with
    | none =>
      have hm' : Machine.mergeOnce m' = none := by
        rw [mergeOnce_eq_none, h.work.length_eq]
        exact mergeOnce_eq_none.mp hm
      rw [Machine.mergeLoop, hm', Machine.mergeLoop, hm]
      exact h
    | some n =>
      obtain ⟨n', hm', hn⟩ := h.mergeOnce hm
      rw [Machine.mergeLoop, hm', Machine.mergeLoop, hm]
      exact ih hn

/-- Settles O49: every turn keeps `SameMerges`. -/
theorem heapLayoutIsNotObservable : Obligations.HeapLayoutIsNotObservable := by
  intro fc n j w hw
  have h : SameMerges { mergeLoop n (mergeStart fc) with work := w } (mergeLoop n (mergeStart fc)) := ⟨rfl, rfl, hw⟩
  exact ⟨(h.mergeLoop j).nm, (h.mergeLoop j).k, (h.mergeLoop j).work⟩

/-! ### Codes as paths -/

/-- Settles O51: an entry's bits are a path of the finished tree, and paths lead to their leaves. -/
theorem codesArePathsToLeaves : Obligations.CodesArePathsToLeaves := by
  refine ⟨fun fc r x hn hroot hx => ?path, fun fc x hx => ?single⟩
  case path =>
    obtain ⟨r', t, hroot', hrep, hleaves, hbits⟩ := builtTable_bits hn
    obtain rfl : r = r' := Option.some.inj (hroot.symm.trans hroot')
    have hleaf : x ∈ t.leaves := hleaves.symm.subset ((mem_presentSyms fc x).mpr hx)
    obtain ⟨q, hq⟩ := CodeTree.exists_code_of_mem_leaves [] hleaf
    rw [hbits _ hq]
    exact hrep.follow_eq [] q x hq
  case single => rw [builtTable_of_singleton hx, CtEntry.ofBits_bits [false] (by decide)]

end Sys2Proof.Machine
end
